-- ==== Sys2Proof/Word.lean ====
section
/-!
DEFINITION. The word types of the core.
Bit 0 of every value is its least significant bit (R8); every value is unsigned.
-/

namespace Sys2Proof

/-- A byte (R10). -/
abbrev Byte := BitVec 8

/-- A command word or a STATUS word (R22, R25). -/
abbrev Word32 := BitVec 32

/-- A byte count or a bit count (R23, R133). -/
abbrev Word64 := BitVec 64

/-- A block, a Field Element, a counter block or a tag: one 128-bit value (R9, R10, R21). -/
abbrev Block := BitVec 128

end Sys2Proof
end

