-- ==== Sys2Proof/Config.lean ====
section
/-!
DEFINITION. The parameters the spec leaves open (00_scope.md section 5, R7, R20): the cipher, the legal key
lengths and the buffer capacities. Every meaning takes them as one argument `Params`; `Config.params` is the choice
that `exec` and `step` use.
-/

namespace Sys2Proof

/-- What is no state of the core but a parameter of its step (R20). `cipher K B` is `E(K, B)` (R7);
`legalKeyBytes` is `LEGAL_KEY_BYTES` (R171); a capacity `none` is unbounded (R27). -/
structure Params where
  cipher        : List Byte → Block → Block
  legalKeyBytes : List Nat
  capNonce      : Option Nat
  capAad        : Option Nat
  capData       : Option Nat

/-- The block cipher of the environment (R7). It has no body: all that is known of it is that it is a function of key
and block, and a permutation of the blocks for each key (log entry 3). -/
opaque Config.cipher : List Byte → Equiv.Perm Block

/-- The parameters of the machine the model runs: the unknown cipher, and for the open parameters the defaults the
spec states, `{32}` and unbounded. DESIGN CHOICE (log entry 4): the spec leaves them open beside their defaults. -/
def Config.params : Params where
  cipher        := fun key block => Config.cipher key block
  legalKeyBytes := [32]
  capNonce      := none
  capAad        := none
  capData       := none

end Sys2Proof
end

