-- ==== Sys2Proof/Machine/State.lean ====
section
/-!
DEFINITION. The state of the machine: every register, buffer and hidden register of 10_state.md, the input and output
of the host port, the record of the cipher port, and the reasons a step can stop.
-/

namespace Sys2Proof.Machine

/-- The positions of the sequencer (R32). Their numeric encoding is not architectural. -/
inductive Phase where
  | idle
  | check
  | subkey
  | deriveY0
  | keystream
  | hashA
  | hashC
  | hashL
  | tag
  | compare
  | publish
deriving DecidableEq, Repr

/-- The causes of an error that the rules raise (R210): codes 1 to 9. Code 0 is no error; 10 to 15 are never produced. -/
inductive ErrCode where
  | cfgKeyLen
  | cfgNonceEmpty
  | ovfNonceLen
  | ovfAadLen
  | ovfDataLen
  | ovfBlocks
  | ovfCapacity
  | authFail
  | illegalCmd
deriving DecidableEq, Repr

/-- The source's failure classes (R211, R212, R213), and the spec's own for a word that is no command (R94). -/
inductive ErrClass where
  | configuration
  | overflow
  | authentication
  | commandWord
deriving DecidableEq, Repr

/-- The five byte buffers (10_state.md section 4). -/
inductive Buf where
  | key
  | nonce
  | aad
  | din
  | dout
deriving DecidableEq, Repr

/-- The registers of 32 bits (10_state.md sections 2 and 3). -/
inductive Reg32 where
  | cmd
  | status
deriving DecidableEq, Repr

/-- The registers of 64 bits. -/
inductive Reg64 where
  | keyLen
  | nonceLen
  | aadLen
  | dataLen
  | outLen
deriving DecidableEq, Repr

/-- The registers of 128 bits. -/
inductive Reg128 where
  | opa
  | opb
  | res
  | tagIn
  | tagOut
deriving DecidableEq, Repr

/-- One action of the host at the core's port (R22 to R30, R97), the reset input (R240), or leaving the core one
step to itself (`pause`, the model's own; log entry 2). A register access is made at the register's full width (D5). -/
inductive HostAction where
  | write32   (r : Reg32) (v : Word32)
  | write64   (r : Reg64) (v : Word64)
  | write128  (r : Reg128) (v : Block)
  | writeByte (b : Buf) (i : Nat) (v : Byte)
  | read32    (r : Reg32)
  | read64    (r : Reg64)
  | read128   (r : Reg128)
  | readByte  (b : Buf) (i : Nat)
  | wait
  | pause
  | reset
deriving DecidableEq, Repr

/-- What a host read answered. -/
inductive HostReply where
  | reg32  (r : Reg32) (v : Word32)
  | reg64  (r : Reg64) (v : Word64)
  | reg128 (r : Reg128) (v : Block)
  | byte   (b : Buf) (i : Nat) (v : Byte)
deriving DecidableEq, Repr

/-- One request at the cipher port (R225): the key bytes and the block. -/
structure CipherRequest where
  key   : List Byte
  block : Block
deriving DecidableEq, Repr

/-- The contents of one buffer: byte index and byte, indices strictly rising. An index that is not listed holds no
value (R28, U7). -/
abbrev Memory := List Host.Cell

/-- The host-written registers but CMD (10_state.md section 2). No command writes them. -/
structure HostRegs where
  keyLen   : Word64
  nonceLen : Word64
  aadLen   : Word64
  dataLen  : Word64
  opa      : Block
  opb      : Block
  tagIn    : Block
deriving DecidableEq, Repr

/-- The four input buffers (R27, R28). No command writes them. -/
structure InputBufs where
  key   : Memory
  nonce : Memory
  aad   : Memory
  din   : Memory
deriving DecidableEq, Repr

/-- The working registers of the multiplier (R113): Z, V and MI. -/
structure Multiplier where
  z  : Block
  v  : Block
  mi : BitVec 8
deriving DecidableEq, Repr

/-- The hidden working state (10_state.md section 5). -/
structure Hidden where
  phase : Phase
  blk   : Word64
  h     : Block
  x     : Block
  mul   : Multiplier
  y0    : Block
  y     : Block
  eky0  : Block
  lenA  : Word64
  lenC  : Word64
  tagX  : Block
  obuf  : Memory
deriving DecidableEq, Repr

/-- The machine. `cmd`, `regs` and `bufs` are what the host writes; `status`, `res`, `tagOut`, `outLen` and `dout`
what the core writes; `hidden` what neither the host reads nor writes. `pending`, `replies`, `requests` and `split`
are the model's own: the host port's input and output, the cipher port's record, and whether an accepted command runs
as one step or phase by phase (log entries 1, 2 and 10). -/
structure State where
  cmd      : Word32
  regs     : HostRegs
  bufs     : InputBufs
  status   : Word32
  res      : Block
  tagOut   : Block
  outLen   : Word64
  dout     : Memory
  hidden   : Hidden
  pending  : List HostAction
  replies  : List HostReply
  requests : List CipherRequest
  split    : Bool
deriving DecidableEq, Repr

/-- Why the machine stops. -/
inductive Fault where
  /-- The host wrote buffer `b` at index `i`, at or above its set capacity: no such byte exists (R27, log entry 8).
  Raised by the host port. Safe: the model stops. -/
  | indexOutOfRange (b : Buf) (i : Nat)
  /-- A busy core in a phase its command does not pass through: a violated internal invariant, where the spec gives no
  transition (R214, U5, log entry 13). Raised by the phase-by-phase step. Safe: no reachable state raises it. -/
  | stuck
deriving DecidableEq, Repr

/-- Why a command gets no meaning. -/
inductive Refusal where
  /-- The instruction has no meaning in the model yet. Raised by `exec`. Safe. -/
  | notModelled (mnemonic : String)
  /-- The command, or a host read of DOUT, would read byte `i` of buffer `b`, which nothing has written: outside the
  spec, no result (R28, U7, log entry 5). Raised by GHASH, GCM_ENC, GCM_DEC and the host port. Safe: the model stops. -/
  | unwrittenByte (b : Buf) (i : Nat)
deriving DecidableEq, Repr

/-- All hidden registers zero, PHASE = IDLE, OBUF empty (R38, R47). -/
def Hidden.zero : Hidden where
  phase := .idle
  blk   := 0
  h     := 0
  x     := 0
  mul   := { z := 0, v := 0, mi := 0 }
  y0    := 0
  y     := 0
  eky0  := 0
  lenA  := 0
  lenC  := 0
  tagX  := 0
  obuf  := []

/-- The host-written registers after reset (R47). -/
def HostRegs.zero : HostRegs where
  keyLen   := 0
  nonceLen := 0
  aadLen   := 0
  dataLen  := 0
  opa      := 0
  opb      := 0
  tagIn    := 0

/-- The input buffers after reset: no byte has a value (R28, R47, U8). -/
def InputBufs.unwritten : InputBufs where
  key   := []
  nonce := []
  aad   := []
  din   := []

/-- The machine right after reset (R47, R240). -/
def State.reset : State where
  cmd      := 0
  regs     := HostRegs.zero
  bufs     := InputBufs.unwritten
  status   := 0
  res      := 0
  tagOut   := 0
  outLen   := 0
  dout     := []
  hidden   := Hidden.zero
  pending  := []
  replies  := []
  requests := []
  split    := false

end Sys2Proof.Machine
end

