-- ==== Sys2Proof/Machine/Flags.lean ====
section
/-!
DEFINITION. STATUS: its fields, its legal values, and the error codes (R25, R210, R220).
-/

namespace Sys2Proof.Machine

/-- The STATUS word of its fields; the reserved bits 7:4 and 31:12 are 0 (R25). -/
def Status.pack (busy done err authOk : Bool) (errCode : BitVec 4) : Word32 :=
  (0#20 ++ errCode ++ 0#4 ++ BitVec.ofBool authOk ++ BitVec.ofBool err ++ BitVec.ofBool done ++
    BitVec.ofBool busy : BitVec 32)

/-- BUSY, bit 0 (R25). -/
def Status.busy (w : Word32) : Bool := w.getLsbD 0

/-- DONE, bit 1 (R25). -/
def Status.done (w : Word32) : Bool := w.getLsbD 1

/-- ERR, bit 2 (R25). -/
def Status.err (w : Word32) : Bool := w.getLsbD 2

/-- AUTH_OK, bit 3 (R25). -/
def Status.authOk (w : Word32) : Bool := w.getLsbD 3

/-- ERR_CODE, bits 11:8 (R25). -/
def Status.errCode (w : Word32) : BitVec 4 := w.extractLsb' 8 4

/-- The reserved bits 7:4 and 31:12 (R25). -/
def Status.reserved (w : Word32) : BitVec 24 := w.extractLsb' 12 20 ++ w.extractLsb' 4 4

/-- A command is executing: BUSY = 1, every other field 0 (R25, R92). -/
def Status.executing : Word32 := Status.pack true false false false 0

/-- Completed without error (R111, R116, R136, R151, R180). -/
def Status.succeeded : Word32 := Status.pack false true false false 0

/-- Completed: GCM_DEC with equal tags (R190). -/
def Status.authenticated : Word32 := Status.pack false true false true 0

/-- The number of an error code (R210). -/
def ErrCode.number : ErrCode → BitVec 4
  | .cfgKeyLen     => 1
  | .cfgNonceEmpty => 2
  | .ovfNonceLen   => 3
  | .ovfAadLen     => 4
  | .ovfDataLen    => 5
  | .ovfBlocks     => 6
  | .ovfCapacity   => 7
  | .authFail      => 8
  | .illegalCmd    => 9

/-- The class an error code belongs to (R210 to R213); code 7 is reported as an overflow. -/
def ErrCode.errClass : ErrCode → ErrClass
  | .cfgKeyLen     => .configuration
  | .cfgNonceEmpty => .configuration
  | .ovfNonceLen   => .overflow
  | .ovfAadLen     => .overflow
  | .ovfDataLen    => .overflow
  | .ovfBlocks     => .overflow
  | .ovfCapacity   => .overflow
  | .authFail      => .authentication
  | .illegalCmd    => .commandWord

/-- Completed with an error (R216). -/
def Status.failed (code : ErrCode) : Word32 := Status.pack false true true false code.number

/-- The values STATUS may hold: idle after reset, busy, or done (R25), with the codes the rules produce (R210). -/
def Status.legal (w : Word32) : Bool :=
  w == 0 || w == Status.executing || w == Status.succeeded || w == Status.authenticated ||
  [ErrCode.cfgKeyLen, .cfgNonceEmpty, .ovfNonceLen, .ovfAadLen, .ovfDataLen, .ovfBlocks, .ovfCapacity, .authFail,
    .illegalCmd].any fun code => w == Status.failed code

/-- The level of the `done` line (R220). -/
def doneLine (s : State) : Bool := Status.done s.status

end Sys2Proof.Machine
end

