-- ==== Sys2Proof/Machine/Ops.lean ====
section
/-!
DEFINITION. The operations all commands share: a buffer's bytes, START, the completion update, and the error
completion, which is the core's way to take an exception (60_exceptions.md section 2). The return from it is the next
START (R222), which is the same operation for every command word.
-/

namespace Sys2Proof.Machine

/-- Byte `i` of a buffer, if it has been written (R28). -/
def Memory.read : Memory → Nat → Option Byte
  | [], _ => none
  | (a, v) :: m, i => if a = i then some v else Memory.read m i

/-- Write byte `i` of a buffer, keeping the indices strictly rising. -/
def Memory.write : Memory → Nat → Byte → Memory
  | [], i, v => [(i, v)]
  | (a, x) :: m, i, v =>
    if i < a then (i, v) :: (a, x) :: m
    else if i = a then (i, v) :: m
    else (a, x) :: Memory.write m i v

/-- `BufWrite(BUF, off, s)` (R11). -/
def Memory.writeBytes : Memory → Nat → List Byte → Memory
  | m, _, [] => m
  | m, off, v :: vs => Memory.writeBytes (Memory.write m off v) (off + 1) vs

/-- `BufRead(BUF, off, n)`, the bytes `[off, off + n)` of buffer `b` (R11, R66); a byte that nothing has written has no
value (R28, U7). -/
def Memory.readBytes (b : Buf) (m : Memory) : Nat → Nat → Except Refusal (List Byte)
  | _, 0 => .ok []
  | off, n + 1 =>
    match Memory.read m off with
    | none => .error (.unwrittenByte b off)
    | some v =>
      match Memory.readBytes b m (off + 1) n with
      | .error r => .error r
      | .ok vs => .ok (v :: vs)

/-- The bytes of a buffer below index `n`. -/
def Memory.below (m : Memory) (n : Nat) : Memory := m.filter fun cell => cell.1 < n

/-- The canonical form: indices strictly rising. No index reads as a default, so no listed byte can be redundant. -/
def Memory.wf : Memory → Bool
  | [] => true
  | [_] => true
  | (a, _) :: (b, w) :: m => decide (a < b) && Memory.wf ((b, w) :: m)

/-- Every buffer of the state, OBUF too, is in canonical form. -/
def memoriesWf (s : State) : Bool :=
  Memory.wf s.bufs.key && Memory.wf s.bufs.nonce && Memory.wf s.bufs.aad && Memory.wf s.bufs.din &&
  Memory.wf s.dout && Memory.wf s.hidden.obuf

/-- START with word `w` (R92): CMD takes the word, STATUS shows BUSY alone, the results, the hidden state and OBUF are
cleared and PHASE is CHECK. The record of cipher requests begins anew (the model's own, log entry 10). -/
def start (w : Word32) (s : State) : State :=
  { s with
    cmd := w
    status := Status.executing
    res := 0
    tagOut := 0
    outLen := 0
    dout := []
    hidden := { Hidden.zero with phase := .check }
    requests := [] }

/-- The completion update (R37), one indivisible change: results and STATUS are published, PHASE is IDLE, the hidden
state is cleared and OBUF is empty (R38). -/
def complete (status : Word32) (res tagOut : Block) (outLen : Word64) (dout : Memory) (s : State) : State :=
  { s with
    status := status
    res := res
    tagOut := tagOut
    outLen := outLen
    dout := dout
    hidden := Hidden.zero }

/-- `raise Err(code)`: the error completion (R216). No result, ERR = 1, ERR_CODE = code; nothing else changes. -/
def raiseErr (code : ErrCode) (s : State) : State := complete (Status.failed code) 0 0 0 [] s

/-- Completion of a command whose one result is RES (R111, R116, R136, R151). -/
def publishRes (v : Block) (s : State) : State := complete Status.succeeded v 0 0 [] s

/-- `PHASE <- p` at the start of a phase (R32); BLK counts the blocks of a phase from 1, so it enters at 0. -/
def enterPhase (p : Phase) (s : State) : State :=
  { s with hidden := { s.hidden with phase := p, blk := 0 } }

end Sys2Proof.Machine
end

