-- ==== Sys2Proof/Machine/Admission.lean ====
section
/-!
DEFINITION. The admission checks: what a command's length registers must satisfy before any cipher request and any
buffer read (R137, R171, R172), in the order of R218.
-/

namespace Sys2Proof.Machine

/-- The longest byte sequence whose bit length fits 64 bits: 2^61 − 1 (R133). -/
def maxBytes : Nat := 2 ^ 61 - 1

/-- `MAX_BLOCKS` = 2^32 − 2 (R172, 00_scope.md section 5). -/
def maxBlocks : Nat := 2 ^ 32 - 2

/-- The length is above the capacity; an unbounded buffer (`none`) is never exceeded (R27, U12). -/
def exceeds (len : Nat) : Option Nat → Bool
  | none => false
  | some cap => decide (cap < len)

/-- Admission of GHASH (R137): the first check that fails, if any. -/
def admitGhash (P : Params) (regs : HostRegs) : Option ErrCode :=
  if regs.aadLen.toNat > maxBytes then some .ovfAadLen
  else if regs.dataLen.toNat > maxBytes then some .ovfDataLen
  else if exceeds regs.aadLen.toNat P.capAad || exceeds regs.dataLen.toNat P.capData then some .ovfCapacity
  else none

/-- Configuration checks of GCM_ENC and GCM_DEC (R155, R171). -/
def admitConfiguration (P : Params) (regs : HostRegs) : Option ErrCode :=
  if P.legalKeyBytes.contains regs.keyLen.toNat = false then some .cfgKeyLen
  else if regs.nonceLen.toNat = 0 then some .cfgNonceEmpty
  else none

/-- Overflow checks of GCM_ENC and GCM_DEC (R172); `ceil(DATA_LEN/16)` is `(DATA_LEN + 15) div 16`. -/
def admitOverflow (P : Params) (regs : HostRegs) : Option ErrCode :=
  if regs.nonceLen.toNat > maxBytes then some .ovfNonceLen
  else if regs.aadLen.toNat > maxBytes then some .ovfAadLen
  else if regs.dataLen.toNat > maxBytes then some .ovfDataLen
  else if (regs.dataLen.toNat + 15) / 16 > maxBlocks then some .ovfBlocks
  else if exceeds regs.nonceLen.toNat P.capNonce || exceeds regs.aadLen.toNat P.capAad ||
    exceeds regs.dataLen.toNat P.capData then some .ovfCapacity
  else none

/-- Admission of GCM_ENC and GCM_DEC: configuration first, then overflow (R171, R172, R218). -/
def admitGcm (P : Params) (regs : HostRegs) : Option ErrCode :=
  match admitConfiguration P regs with
  | some code => some code
  | none => admitOverflow P regs

end Sys2Proof.Machine
end

