-- ==== Sys2Proof/Syntax.lean ====
section
/-!
DEFINITION. The commands, one constructor per row of the opcode table (R91), and the one command word format C (R90).
-/

namespace Sys2Proof

/-- The six commands (R91). A command word carries no operand fields: every operand stands in a fixed register or
buffer (R90, R93). -/
inductive Instr where
  | gfAdd
  | gfMul
  | inc32
  | ghash
  | gcmEnc
  | gcmDec
deriving DecidableEq, Repr

/-- Format C: OPCODE in bits 7:0, ZERO in bits 31:8 (R90). -/
structure FormatC where
  opcode : BitVec 8
  zero   : BitVec 24
deriving DecidableEq, Repr

end Sys2Proof
end

