-- ==== Sys2Proof/WellFormed.lean ====
section
/-!
DEFINITION. Which command words and commands are well formed (R90, R94). A word is, when its ZERO field is clear and
its opcode is one of the six; a command has no operand, so each of the six is.
-/

namespace Sys2Proof

/-- The ZERO field is 0 (R90). -/
def FormatC.zeroClear (c : FormatC) : Bool := c.zero == 0

/-- The opcode is one of the six that R92 lists. -/
def FormatC.opcodeAssigned (c : FormatC) : Bool :=
  [0x01#8, 0x02#8, 0x03#8, 0x04#8, 0x10#8, 0x11#8].contains c.opcode

/-- The word is legal (R94). -/
def FormatC.wellFormed (c : FormatC) : Bool := c.zeroClear && c.opcodeAssigned

/-- A command has no operand that could be out of range (R90, R95). -/
def Instr.wellFormed : Instr → Bool
  | .gfAdd  => true
  | .gfMul  => true
  | .inc32  => true
  | .ghash  => true
  | .gcmEnc => true
  | .gcmDec => true

end Sys2Proof
end

