-- ==== Sys2Proof/Decode.lean ====
section
/-!
DEFINITION. The decoder of command words, total and rejecting by name (R90, R94, R96), and the encoder (R91).
A command word is written to CMD as one 32-bit value; nothing is fetched, so no byte order applies (R61).
-/

namespace Sys2Proof

/-- Why a word is no command (R94). Both reasons are reported by the core as ILLEGAL_CMD. -/
inductive DecodeError where
  /-- A bit of 31:8 is set. -/
  | zeroFieldNotClear
  /-- Bits 31:8 are clear and the opcode is not one of the six. -/
  | unassignedOpcode (opcode : BitVec 8)
deriving DecidableEq, Repr

/-- What the decoder makes of a word. -/
inductive Decoded where
  | command (i : Instr)
  | illegal (why : DecodeError)
deriving DecidableEq, Repr

/-- The fields of a word (R90). -/
def FormatC.ofWord (w : Word32) : FormatC where
  opcode := w.extractLsb' 0 8
  zero   := w.extractLsb' 8 24

/-- The word of the fields (R90). -/
def FormatC.toWord (c : FormatC) : Word32 := c.zero ++ c.opcode

/-- The opcode map, from opcode to command (R91). -/
def commandOfOpcode (opcode : BitVec 8) : Option Instr :=
  if opcode = 0x01#8 then some .gfAdd
  else if opcode = 0x02#8 then some .gfMul
  else if opcode = 0x03#8 then some .inc32
  else if opcode = 0x04#8 then some .ghash
  else if opcode = 0x10#8 then some .gcmEnc
  else if opcode = 0x11#8 then some .gcmDec
  else none

/-- The decoder: the ZERO field first, then the opcode (R92, R94). It looks at the word alone (R96). -/
def decode (w : Word32) : Decoded :=
  if (FormatC.ofWord w).zero = 0 then
    match commandOfOpcode (FormatC.ofWord w).opcode with
    | some i => .command i
    | none   => .illegal (.unassignedOpcode (FormatC.ofWord w).opcode)
  else .illegal .zeroFieldNotClear

/-- The opcode map, from command to opcode (R91). -/
def opcodeOfCommand : Instr → BitVec 8
  | .gfAdd  => 0x01#8
  | .gfMul  => 0x02#8
  | .inc32  => 0x03#8
  | .ghash  => 0x04#8
  | .gcmEnc => 0x10#8
  | .gcmDec => 0x11#8

/-- The command word of a command (R91). -/
def encode (i : Instr) : Word32 := FormatC.toWord { opcode := opcodeOfCommand i, zero := 0 }

/-- The command the decoder reads from a row of the opcode table: the low `nbits` bits of `w`, the bits above them 0. -/
def decodeTableWord (nbits w : Nat) : Option Instr :=
  match decode (BitVec.ofNat 32 (w % 2 ^ nbits)) with
  | .command i => some i
  | .illegal _ => none

end Sys2Proof
end

