-- ==== Sys2Proof/Machine/Field.lean ====
section
/-!
DEFINITION. Field Element arithmetic (40_field_arithmetic.md): addition, the shift-and-reduce multiplier with its
working registers, and the commands GF_ADD and GF_MUL.
-/

namespace Sys2Proof.Machine

/-- `R_CONST` = 0xE1 << 120, the polynomial x^7 + x^2 + x + 1 (R9, R114). -/
def rConst : Block := 0xE1000000000000000000000000000000#128

/-- `ONE` = 2^127, the polynomial 1 (R9, R118). -/
def fieldOne : Block := 0x80000000000000000000000000000000#128

/-- `gf_add(a, b)` (R110). -/
def gfAdd (a b : Block) : Block := a ^^^ b

/-- Multiplication of the running copy by x: shift right by one, and fold the vacated x^127 back in (R112, R114). -/
def timesX (v : Block) : Block := if v.getLsbD 0 then (v >>> 1) ^^^ rConst else v >>> 1

/-- One iteration of the multiplier, `mul_step` (R113), for MI < 128. -/
def mulStep (b : Block) (m : Multiplier) : Multiplier where
  z  := if b.getLsbD (127 - m.mi.toNat) then m.z ^^^ m.v else m.z
  v  := timesX m.v
  mi := m.mi + 1

/-- `n` iterations of the multiplier. -/
def mulSteps (b : Block) : Nat → Multiplier → Multiplier
  | 0, m => m
  | n + 1, m => mulSteps b n (mulStep b m)

/-- The multiplier's registers before its first iteration: Z = 0, V = a, MI = 0 (R113). -/
def mulLoad (a : Block) : Multiplier where
  z  := 0
  v  := a
  mi := 0

/-- The multiplier's registers after the 128 iterations of `a · b`. -/
def mulRun (a b : Block) : Multiplier := mulSteps b 128 (mulLoad a)

/-- `gf_mul(a, b)`: the product stands in Z when MI is 128 (R112, R113). -/
def gfMul (a b : Block) : Block := (mulRun a b).z

/-- The multiplier run on the hidden registers of the state (R113). -/
def runMultiplier (a b : Block) (s : State) : State :=
  { s with hidden := { s.hidden with mul := mulRun a b } }

/-- GF_ADD (R111): RES <- gf_add(OPA, OPB). -/
def execGfAdd (s : State) : Host.Outcome State Fault Refusal :=
  .next (publishRes (gfAdd s.regs.opa s.regs.opb) (start (encode .gfAdd) s))

/-- GF_MUL (R116): the multiplier runs on OPA and OPB and RES <- Z. -/
def execGfMul (s : State) : Host.Outcome State Fault Refusal :=
  let s1 := runMultiplier s.regs.opa s.regs.opb (start (encode .gfMul) s)
  .next (publishRes s1.hidden.mul.z s1)

end Sys2Proof.Machine
end

