-- ==== Sys2Proof/Machine/Operands.lean ====
section
/-!
DEFINITION. How operands are assembled (R95): byte order (R10, R60, R61), block segmentation and padding (R62, R63),
the length block (R132), the block read (R65), the truncated output piece (R67), and the sampling of a command's
operands (R77, R93).
-/

namespace Sys2Proof.Machine

/-- `int_be(s)`: the big-endian value of a byte sequence of any length (R10). -/
def intBe (s : List Byte) : Nat := s.foldl (fun acc b => acc * 256 + b.toNat) 0

/-- `be_N(v)` for `n` bytes: the big-endian bytes of `v`, most significant first (R10). -/
def beBytes (n v : Nat) : List Byte := (List.range n).map fun j => BitVec.ofNat 8 (v >>> (8 * (n - 1 - j)))

/-- `be_128(v)`: the 16 bytes of a block (R60). -/
def be128 (v : Block) : List Byte := beBytes 16 v.toNat

/-- `zeros(n)` (R10). -/
def zeros (n : Nat) : List Byte := List.replicate n 0

/-- The block of at most 16 bytes, zero-padded on the right (R60, R62, R63). -/
def blockOfBytes (s : List Byte) : Block := BitVec.ofNat 128 (intBe (s ++ zeros (16 - s.length)))

/-- `ceil(L / 16)` (R62). -/
def blockCount (len : Nat) : Nat := (len + 15) / 16

/-- The bytes of block `k` (from 0) of a sequence, 16 of them but for a partial last block (R62, R67). -/
def chunk (s : List Byte) (k : Nat) : List Byte := (s.drop (16 * k)).take 16

/-- The blocks of `segment(s)` (R62; each sequence on its own, R64). -/
def segmentBlocks (s : List Byte) : List Block := (List.range (blockCount s.length)).map fun k => blockOfBytes (chunk s k)

/-- The `last_len` of `segment(s)`: the true length of the last block (R62). -/
def lastLen (len : Nat) : Nat := if len = 0 then 0 else if len % 16 = 0 then 16 else len % 16

/-- `len_block(len_A, len_C)` (R132). -/
def lenBlock (lenA lenC : Word64) : Block := (lenA ++ lenC : BitVec 128)

/-- The bit length of a byte length (R133). Admission keeps it below 2^64. -/
def bitLen (bytes : Word64) : Word64 := 8 * bytes

/-- The data bytes of one output block xor the prefix of the keystream block (R67). -/
def xorPiece (d : List Byte) (ks : Block) : List Byte := List.zipWith (fun x y => x ^^^ y) d (be128 ks)

/-- How many bytes block `k` (from 0) of a buffer of `len` bytes has (R65). -/
def pieceLen (len k : Nat) : Nat := min 16 (len - 16 * k)

/-- The bytes of block `k` (from 0) of the buffer's first `len` bytes (R65, R70). -/
def readPiece (b : Buf) (m : Memory) (len k : Nat) : Except Refusal (List Byte) :=
  Memory.readBytes b m (16 * k) (pieceLen len k)

/-- The operands of GHASH beside OPA (R93). -/
structure GhashOperands where
  aad  : List Byte
  data : List Byte
deriving DecidableEq, Repr

/-- The operands of GCM_ENC and GCM_DEC beside TAG_IN (R93). -/
structure GcmOperands where
  key   : List Byte
  nonce : List Byte
  aad   : List Byte
  data  : List Byte
deriving DecidableEq, Repr

/-- `AAD[0 .. AAD_LEN)` and `DIN[0 .. DATA_LEN)` as they stand at START (R77, R93). -/
def sampleGhash (regs : HostRegs) (bufs : InputBufs) : Except Refusal GhashOperands :=
  match Memory.readBytes .aad bufs.aad 0 regs.aadLen.toNat with
  | .error r => .error r
  | .ok aad =>
    match Memory.readBytes .din bufs.din 0 regs.dataLen.toNat with
    | .error r => .error r
    | .ok data => .ok { aad := aad, data := data }

/-- `KEY[0 .. KEY_LEN)` and so on, as they stand at START (R35, R77, R93). -/
def sampleGcm (regs : HostRegs) (bufs : InputBufs) : Except Refusal GcmOperands :=
  match Memory.readBytes .key bufs.key 0 regs.keyLen.toNat with
  | .error r => .error r
  | .ok key =>
    match Memory.readBytes .nonce bufs.nonce 0 regs.nonceLen.toNat with
    | .error r => .error r
    | .ok nonce =>
      match sampleGhash regs bufs with
      | .error r => .error r
      | .ok op => .ok { key := key, nonce := nonce, aad := op.aad, data := op.data }

end Sys2Proof.Machine
end

