-- ==== Sys2Proof/Machine/Ghash.lean ====
section
/-!
DEFINITION. The GHASH chaining engine (41_ghash.md): the function `ghash`, the phases HASH_A, HASH_C and HASH_L on the
hidden registers, and the command GHASH.
-/

namespace Sys2Proof.Machine

/-- The chain step (R131): add the block to the accumulator, then multiply by the subkey. -/
def absorb (x block h : Block) : Block := gfMul (gfAdd x block) h

/-- The chain over a list of blocks, in order (R134, R135). -/
def absorbAll (h x : Block) (blocks : List Block) : Block := blocks.foldl (fun x block => absorb x block h) x

/-- The length block of two byte sequences (R132, R133). -/
def lenBlockOf (a c : List Byte) : Block :=
  lenBlock (bitLen (BitVec.ofNat 64 a.length)) (bitLen (BitVec.ofNat 64 c.length))

/-- `ghash(H, A, C)` (R134): the associated data, then the data, then the length block, from ZERO (R130). -/
def ghash (h : Block) (a c : List Byte) : Block :=
  absorb (absorbAll h (absorbAll h 0 (segmentBlocks a)) (segmentBlocks c)) (lenBlockOf a c) h

/-- One block absorbed on the hidden registers: the multiplier runs on X + B and H, X takes the product (R131). -/
def absorbInto (block : Block) (s : State) : State :=
  let m := mulRun (gfAdd s.hidden.x block) s.hidden.h
  { s with hidden := { s.hidden with mul := m, x := m.z } }

/-- The next block of HASH_A or HASH_C: BLK counts it, and it is absorbed (R136, R180, R188). -/
def absorbNext (s : State) (block : Block) : State :=
  absorbInto block { s with hidden := { s.hidden with blk := s.hidden.blk + 1 } }

/-- Entry of HASH_A (R180, R188): LENA and LENC from the length registers, X <- ZERO. -/
def enterHashA (s : State) : State :=
  let s1 := enterPhase .hashA s
  { s1 with
    hidden := { s1.hidden with lenA := bitLen s.regs.aadLen, lenC := bitLen s.regs.dataLen, x := 0 } }

/-- HASH_L: absorb the length block of LENA and LENC (R132, R136). -/
def absorbLengths (s : State) : State := absorbInto (lenBlock s.hidden.lenA s.hidden.lenC) s

/-- The phases HASH_A, HASH_C and HASH_L over the associated data `a` and the data `c` (R136, R180, R188). -/
def hashPhases (a c : List Byte) (s : State) : State :=
  let afterA := (segmentBlocks a).foldl absorbNext (enterHashA s)
  let afterC := (segmentBlocks c).foldl absorbNext (enterPhase .hashC afterA)
  absorbLengths (enterPhase .hashL afterC)

/-- H <- OPA, before the hash phases of the command GHASH (R136). -/
def loadSubkey (s : State) : State := { s with hidden := { s.hidden with h := s.regs.opa } }

/-- GHASH for any parameters (R136): admission (R137), the hash phases, RES <- X. -/
def ghashWith (P : Params) (s : State) : Host.Outcome State Fault Refusal :=
  let s0 := start (encode .ghash) s
  match admitGhash P s.regs with
  | some code => .next (raiseErr code s0)
  | none =>
    match sampleGhash s.regs s.bufs with
    | .error r => .refused r
    | .ok op =>
      let s1 := hashPhases op.aad op.data (loadSubkey s0)
      .next (publishRes s1.hidden.x s1)

/-- GHASH (R136). -/
def execGhash (s : State) : Host.Outcome State Fault Refusal := ghashWith Config.params s

end Sys2Proof.Machine
end

