-- ==== Sys2Proof/Machine/Counter.lean ====
section
/-!
DEFINITION. The counter sequencer (42_counter.md): the non-propagating increment, the initial counter block, and the
command INC32.
-/

namespace Sys2Proof.Machine

/-- `inc32(y)`: bits 31:0 plus 1 modulo 2^32, bits 127:32 untouched (R150). -/
def inc32 (y : Block) : Block := (y.extractLsb' 32 96 ++ (y.extractLsb' 0 32 + 1#32) : BitVec 128)

/-- `Y_i`, the counter block `i` increments after `y0` (R156). -/
def counterBlock (y0 : Block) : Nat → Block
  | 0 => y0
  | i + 1 => inc32 (counterBlock y0 i)

/-- `int_be(N ‖ 00 00 00 01)` for a 12-byte nonce (R152). -/
def plainCounter (nonce : List Byte) : Block := blockOfBytes (nonce ++ [0x00#8, 0x00#8, 0x00#8, 0x01#8])

/-- `derive_y0(H, N)` (R152, R153): a 12-byte nonce with the counter 1 behind it; any other nonce is hashed. -/
def deriveY0 (h : Block) (nonce : List Byte) : Block :=
  if nonce.length = 12 then plainCounter nonce else ghash h [] nonce

/-- The hash of a nonce on the hidden registers (R33, R130, R131, R153): X <- ZERO, then X is reassigned once for each
block of the nonce and once for the length block, each time with one run of the multiplier on Z, V and MI (R31, R113). -/
def hashNonce (nonce : List Byte) (s : State) : State :=
  (segmentBlocks nonce ++ [lenBlockOf [] nonce]).foldl (fun s block => absorbInto block s)
    { s with hidden := { s.hidden with x := 0 } }

/-- `Y0 <- y0 ; Y <- Y0` (R174). -/
def loadCounter (y0 : Block) (s : State) : State := { s with hidden := { s.hidden with y0 := y0, y := y0 } }

/-- DERIVE_Y0 (R152, R153, R174). A hashed nonce goes through the accumulator and the multiplier, and Y0 is taken from X.
No rule clears X, Z, V and MI behind it, so they keep the values of its last multiplication until HASH_A clears X and the
next multiplication loads Z, V and MI; a 12-byte nonce leaves all four as they were (DESIGN CHOICE, log entry 9). -/
def deriveCounter (nonce : List Byte) (s : State) : State :=
  if nonce.length = 12 then loadCounter (plainCounter nonce) s
  else
    let s1 := hashNonce nonce s
    loadCounter s1.hidden.x s1

/-- INC32 (R151): RES <- inc32(OPA). -/
def execInc32 (s : State) : Host.Outcome State Fault Refusal :=
  .next (publishRes (inc32 s.regs.opa) (start (encode .inc32) s))

end Sys2Proof.Machine
end

