-- ==== Sys2Proof/Machine/Gcm.lean ====
section
/-!
DEFINITION. The GCM mode controller (43_gcm_controller.md): the caller operations as pure functions, the phases on the
hidden registers, and the commands GCM_ENC and GCM_DEC.
-/

namespace Sys2Proof.Machine

/-! The pure functions. `E` is the cipher under its key. -/

/-- One block of `gctr` (R176): the counter steps, and the data piece meets its keystream. -/
def gctrNext (E : Block → Block) (d : List Byte) (acc : Block × List Byte) (k : Nat) : Block × List Byte :=
  (inc32 acc.1, acc.2 ++ xorPiece (chunk d k) (E (inc32 acc.1)))

/-- `gctr(K, Y0, D)` (R176). -/
def gctr (E : Block → Block) (y0 : Block) (d : List Byte) : List Byte :=
  ((List.range (blockCount d.length)).foldl (gctrNext E d) (y0, [])).2

/-- The tag over the ciphertext `c` (R178). -/
def gcmTag (E : Block → Block) (nonce a c : List Byte) : Block := ghash (E 0) a c ^^^ E (deriveY0 (E 0) nonce)

/-- `gcm_encrypt(K, N, A, P)` (R181). -/
def gcmEncrypt (E : Block → Block) (nonce a p : List Byte) : List Byte × Block :=
  let c := gctr E (deriveY0 (E 0) nonce) p
  (c, gcmTag E nonce a c)

/-- `gcm_decrypt(K, N, A, C, T)` (R187); `none` is AuthenticationFailure. -/
def gcmDecrypt (E : Block → Block) (nonce a c : List Byte) (t : Block) : Option (List Byte) :=
  if gcmTag E nonce a c = t then some (gctr E (deriveY0 (E 0) nonce) c) else none

/-- The `n + 2` blocks a session asks the cipher for, in the reference order of GCM_ENC (R179, R180). -/
def encryptRequests (y0 : Block) (n : Nat) : List Block :=
  [0] ++ (List.range n).map (fun i => counterBlock y0 (i + 1)) ++ [y0]

/-- The same blocks in the reference order of GCM_DEC (R179, R188). -/
def decryptRequests (y0 : Block) (n : Nat) : List Block :=
  [0, y0] ++ (List.range n).map fun i => counterBlock y0 (i + 1)

/-! The phases on the hidden registers. -/

/-- A request at the cipher port, recorded (R225); its answer is `P.cipher key block` (R7, R226). -/
def recordRequest (key : List Byte) (block : Block) (s : State) : State :=
  { s with requests := s.requests ++ [{ key := key, block := block }] }

/-- SUBKEY: H <- E(K, 0) (R173). -/
def deriveSubkey (P : Params) (key : List Byte) (s : State) : State :=
  let s1 := recordRequest key 0 s
  { s1 with hidden := { s1.hidden with h := P.cipher key 0 } }

/-- KEYSTREAM, one block (R156, R175, R176): Y steps, the cipher is asked for E(K, Y), and the data piece `d` xor its
keystream is written to OBUF at the block's place (R67, R68). -/
def keystreamBlock (P : Params) (key d : List Byte) (s : State) : State :=
  let y := inc32 s.hidden.y
  let s1 := recordRequest key y s
  { s1 with
    hidden := { s1.hidden with
      y := y
      blk := s1.hidden.blk + 1
      obuf := Memory.writeBytes s1.hidden.obuf (16 * s1.hidden.blk.toNat) (xorPiece d (P.cipher key y)) } }

/-- KEYSTREAM over all the data (R176, R180, R188). -/
def keystreamPhase (P : Params) (key data : List Byte) (s : State) : State :=
  (List.range (blockCount data.length)).foldl (fun s k => keystreamBlock P key (chunk data k) s)
    (enterPhase .keystream s)

/-- TAG: EKY0 <- E(K, Y0), TAGX <- X xor EKY0 (R177, R178). -/
def maskTag (P : Params) (key : List Byte) (s : State) : State :=
  let s1 := recordRequest key s.hidden.y0 s
  let eky0 := P.cipher key s.hidden.y0
  { s1 with hidden := { s1.hidden with eky0 := eky0, tagX := s.hidden.x ^^^ eky0 } }

/-- COMPARE: all 128 bits of TAGX and TAG_IN are equal (R183, R186). -/
def tagsEqual (s : State) : Bool := s.hidden.tagX ^^^ s.regs.tagIn == 0

/-- `DOUT[0 .. DATA_LEN) <- OBUF[0 .. DATA_LEN)`, the released bytes (R180, R190). -/
def releasedBytes (s : State) : Memory := Memory.below s.hidden.obuf s.regs.dataLen.toNat

/-- The bytes of OBUF below DATA_LEN, in index order: the ciphertext that GCM_ENC hashes (R180). -/
def stagedBytes (s : State) : List Byte := (releasedBytes s).map fun cell => cell.2

/-- PUBLISH of GCM_ENC (R180): the ciphertext, its length and the tag. -/
def publishEncrypted (s : State) : State :=
  complete Status.succeeded 0 s.hidden.tagX s.regs.dataLen (releasedBytes s) s

/-- PUBLISH of GCM_DEC with equal tags (R190): the plaintext and its length; TAG_OUT stays 0 (R191). -/
def publishDecrypted (s : State) : State :=
  complete Status.authenticated 0 0 s.regs.dataLen (releasedBytes s) s

/-- The one decision of GCM_DEC (R78, R186): release (R190) or discard (R191). -/
def decideDecryption (s : State) : State :=
  if tagsEqual s then publishDecrypted (enterPhase .publish s) else raiseErr .authFail s

/-- SUBKEY and DERIVE_Y0, with which both commands begin (R180, R188). -/
def sessionStart (P : Params) (op : GcmOperands) (s : State) : State :=
  deriveCounter op.nonce (enterPhase .deriveY0 (deriveSubkey P op.key (enterPhase .subkey s)))

/-- The phases of GCM_ENC up to PUBLISH (R180): the ciphertext is made in OBUF, then hashed from there. -/
def encryptPhases (P : Params) (op : GcmOperands) (s : State) : State :=
  let s1 := keystreamPhase P op.key op.data (sessionStart P op s)
  maskTag P op.key (enterPhase .tag (hashPhases op.aad (stagedBytes s1) s1))

/-- The phases of GCM_DEC up to COMPARE (R188): the received ciphertext is hashed, then deciphered into OBUF. -/
def decryptPhases (P : Params) (op : GcmOperands) (s : State) : State :=
  let s1 := hashPhases op.aad op.data (sessionStart P op s)
  keystreamPhase P op.key op.data (maskTag P op.key (enterPhase .tag s1))

/-- GCM_ENC for any parameters (R180, R182). -/
def gcmEncWith (P : Params) (s : State) : Host.Outcome State Fault Refusal :=
  let s0 := start (encode .gcmEnc) s
  match admitGcm P s.regs with
  | some code => .next (raiseErr code s0)
  | none =>
    match sampleGcm s.regs s.bufs with
    | .error r => .refused r
    | .ok op => .next (publishEncrypted (enterPhase .publish (encryptPhases P op s0)))

/-- GCM_DEC for any parameters (R184, R188, R189). -/
def gcmDecWith (P : Params) (s : State) : Host.Outcome State Fault Refusal :=
  let s0 := start (encode .gcmDec) s
  match admitGcm P s.regs with
  | some code => .next (raiseErr code s0)
  | none =>
    match sampleGcm s.regs s.bufs with
    | .error r => .refused r
    | .ok op => .next (decideDecryption (enterPhase .compare (decryptPhases P op s0)))

/-- GCM_ENC (R170, R180). -/
def execGcmEnc (s : State) : Host.Outcome State Fault Refusal := gcmEncWith Config.params s

/-- GCM_DEC (R188). -/
def execGcmDec (s : State) : Host.Outcome State Fault Refusal := gcmDecWith Config.params s

end Sys2Proof.Machine
end

