-- ==== Sys2Proof/Machine/Dispatch.lean ====
section
/-!
DEFINITION. One arm per command: `exec i s` is the whole transaction of command `i`, from the state at START to the
state at completion (R6).
-/

namespace Sys2Proof.Machine

/-- The transition of an accepted command (R6, R92, R93). -/
def exec (i : Instr) (s : State) : Host.Outcome State Fault Refusal :=
  match i with
  | .gfAdd => Sys2Proof.Machine.execGfAdd s
  | .gfMul => Sys2Proof.Machine.execGfMul s
  | .inc32 => Sys2Proof.Machine.execInc32 s
  | .ghash => Sys2Proof.Machine.execGhash s
  | .gcmEnc => Sys2Proof.Machine.execGcmEnc s
  | .gcmDec => Sys2Proof.Machine.execGcmDec s

end Sys2Proof.Machine
end

