-- ==== Sys2Proof/Machine/Sequencer.lean ====
section
/-!
DEFINITION. The command split into phases (R32): one `tick` does one phase, or one block of a phase that goes over
blocks. `exec` is the whole command at once (R6); the ticks make the busy core of R46, R241 and R244 visible.
Which phases a command passes through is R136, R180 and R188; for GF_ADD, GF_MUL and INC32, where the spec names none,
CHECK and PUBLISH (DESIGN CHOICE, log entry 9).
-/

namespace Sys2Proof.Machine

/-- The phases of a command in order (R136, R180, R188; log entry 9). -/
def commandPhases : Instr → List Phase
  | .gfAdd  => [.check, .publish]
  | .gfMul  => [.check, .publish]
  | .inc32  => [.check, .publish]
  | .ghash  => [.check, .hashA, .hashC, .hashL, .publish]
  | .gcmEnc => [.check, .subkey, .deriveY0, .keystream, .hashA, .hashC, .hashL, .tag, .publish]
  | .gcmDec => [.check, .subkey, .deriveY0, .hashA, .hashC, .hashL, .tag, .keystream, .compare, .publish]

/-- The phase that follows `p` in a list. -/
def successorIn : List Phase → Phase → Option Phase
  | a :: b :: rest, p => if a = p then some b else successorIn (b :: rest) p
  | _, _ => none

/-- Move to the command's next phase (R32); HASH_A also sets LENA, LENC and X. -/
def advance (i : Instr) (s : State) : Host.Outcome State Fault Refusal :=
  match successorIn (commandPhases i) s.hidden.phase with
  | none => .fault .stuck
  | some .hashA => .next (enterHashA s)
  | some p => .next (enterPhase p s)

/-- Go on with the bytes read, or stop with the reason there are none. -/
def withBytes (bytes : Except Refusal (List Byte)) (go : List Byte → Host.Outcome State Fault Refusal) :
    Host.Outcome State Fault Refusal :=
  match bytes with
  | .error r => .refused r
  | .ok bs => go bs

/-- Go on with the key `KEY[0 .. KEY_LEN)`, which every cipher request carries (R225). -/
def withKey (s : State) (go : List Byte → Host.Outcome State Fault Refusal) : Host.Outcome State Fault Refusal :=
  withBytes (Memory.readBytes .key s.bufs.key 0 s.regs.keyLen.toNat) go

/-- CHECK (R92, R137, R171, R172): admission, then on to the next phase. A command that would read an unwritten byte is
refused here (U7), as `exec` refuses it. -/
def tickCheck (P : Params) (i : Instr) (s : State) : Host.Outcome State Fault Refusal :=
  match i with
  | .gfAdd => advance i s
  | .gfMul => advance i (runMultiplier s.regs.opa s.regs.opb s)
  | .inc32 => advance i s
  | .ghash =>
    match admitGhash P s.regs with
    | some code => .next (raiseErr code s)
    | none =>
      match sampleGhash s.regs s.bufs with
      | .error r => .refused r
      | .ok _ => advance i (loadSubkey s)
  | .gcmEnc | .gcmDec =>
    match admitGcm P s.regs with
    | some code => .next (raiseErr code s)
    | none =>
      match sampleGcm s.regs s.bufs with
      | .error r => .refused r
      | .ok _ => advance i s

/-- KEYSTREAM, one block of DIN, or on when all are done (R180, R188). -/
def tickKeystream (P : Params) (i : Instr) (s : State) : Host.Outcome State Fault Refusal :=
  if s.hidden.blk.toNat < blockCount s.regs.dataLen.toNat then
    withKey s fun key =>
      withBytes (readPiece .din s.bufs.din s.regs.dataLen.toNat s.hidden.blk.toNat) fun d =>
        .next (keystreamBlock P key d s)
  else advance i s

/-- HASH_A, one block of AAD, or on when all are done (R136, R180, R188). -/
def tickHashA (i : Instr) (s : State) : Host.Outcome State Fault Refusal :=
  if s.hidden.blk.toNat < blockCount s.regs.aadLen.toNat then
    withBytes (readPiece .aad s.bufs.aad s.regs.aadLen.toNat s.hidden.blk.toNat) fun d =>
      .next (absorbNext s (blockOfBytes d))
  else advance i s

/-- HASH_C, one block of the ciphertext, or on when all are done: GCM_ENC takes it from OBUF, GHASH and GCM_DEC from
DIN (R136, R180, R188). -/
def tickHashC (i : Instr) (s : State) : Host.Outcome State Fault Refusal :=
  if s.hidden.blk.toNat < blockCount s.regs.dataLen.toNat then
    if i = .gcmEnc then
      match readPiece .dout s.hidden.obuf s.regs.dataLen.toNat s.hidden.blk.toNat with
      | .error _ => .fault .stuck
      | .ok d => .next (absorbNext s (blockOfBytes d))
    else
      withBytes (readPiece .din s.bufs.din s.regs.dataLen.toNat s.hidden.blk.toNat) fun d =>
        .next (absorbNext s (blockOfBytes d))
  else advance i s

/-- PUBLISH: the completion update of each command (R37). -/
def tickPublish (i : Instr) (s : State) : State :=
  match i with
  | .gfAdd  => publishRes (gfAdd s.regs.opa s.regs.opb) s
  | .gfMul  => publishRes s.hidden.mul.z s
  | .inc32  => publishRes (inc32 s.regs.opa) s
  | .ghash  => publishRes s.hidden.x s
  | .gcmEnc => publishEncrypted s
  | .gcmDec => publishDecrypted s

/-- One step of a legal command in a phase it passes through. -/
def tickPhase (P : Params) (i : Instr) (s : State) : Host.Outcome State Fault Refusal :=
  match s.hidden.phase with
  | .idle      => .fault .stuck
  | .check     => tickCheck P i s
  | .subkey    => withKey s fun key => advance i (deriveSubkey P key s)
  | .deriveY0  =>
    withBytes (Memory.readBytes .nonce s.bufs.nonce 0 s.regs.nonceLen.toNat) fun nonce =>
      advance i (deriveCounter nonce s)
  | .keystream => tickKeystream P i s
  | .hashA     => tickHashA i s
  | .hashC     => tickHashC i s
  | .hashL     => advance i (absorbLengths s)
  | .tag       => withKey s fun key => advance i (maskTag P key s)
  | .compare   => if tagsEqual s then advance i s else .next (raiseErr .authFail s)
  | .publish   => .next (tickPublish i s)

/-- One step of a busy core. In CHECK an illegal word raises ILLEGAL_CMD (R92, R94); a phase that the command does not
pass through is a violated invariant (U5). -/
def tick (P : Params) (s : State) : Host.Outcome State Fault Refusal :=
  match decode s.cmd with
  | .illegal _ => if s.hidden.phase = .check then .next (raiseErr .illegalCmd s) else .fault .stuck
  | .command i => if (commandPhases i).contains s.hidden.phase then tickPhase P i s else .fault .stuck

/-- `n` ticks. -/
def ticks (P : Params) : Nat → State → Host.Outcome State Fault Refusal
  | 0, s => .next s
  | n + 1, s =>
    match tick P s with
    | .next s' => ticks P n s'
    | .fault f => .fault f
    | .refused r => .refused r

end Sys2Proof.Machine
end

