-- ==== Sys2Proof/Machine/HostPort.lean ====
section
/-!
DEFINITION. The host port: register and buffer accesses (R22 to R30, R46), the accepted command word (R22, R92), the
reset input (R240, R241), and what one host action does.
-/

namespace Sys2Proof.Machine

/-- The register numbers 0 to 11 (10_state.md sections 2 and 3, R71). -/
def Reg32.number : Reg32 → Nat
  | .cmd    => 0
  | .status => 1

/-- The register numbers of the 64-bit registers. -/
def Reg64.number : Reg64 → Nat
  | .keyLen   => 2
  | .nonceLen => 3
  | .aadLen   => 4
  | .dataLen  => 5
  | .outLen   => 6

/-- The register numbers of the 128-bit registers. -/
def Reg128.number : Reg128 → Nat
  | .opa    => 7
  | .opb    => 8
  | .res    => 9
  | .tagIn  => 10
  | .tagOut => 11

/-- The buffer numbers 0 to 4 (10_state.md section 4, R71). -/
def Buf.number : Buf → Nat
  | .key   => 0
  | .nonce => 1
  | .aad   => 2
  | .din   => 3
  | .dout  => 4

/-- A command is executing (R25). -/
def coreBusy (s : State) : Bool := Status.busy s.status

/-- `HostRead` of a 32-bit register; while busy STATUS shows BUSY alone (R22, R46). -/
def hostRead32 (r : Reg32) (s : State) : Word32 :=
  match r with
  | .cmd    => s.cmd
  | .status => if coreBusy s then Status.executing else s.status

/-- `HostRead` of a 64-bit register; while busy OUT_LEN reads 0 (R46). -/
def hostRead64 (r : Reg64) (s : State) : Word64 :=
  match r with
  | .keyLen   => s.regs.keyLen
  | .nonceLen => s.regs.nonceLen
  | .aadLen   => s.regs.aadLen
  | .dataLen  => s.regs.dataLen
  | .outLen   => if coreBusy s then 0 else s.outLen

/-- `HostRead` of a 128-bit register; while busy RES and TAG_OUT read 0 (R46). -/
def hostRead128 (r : Reg128) (s : State) : Block :=
  match r with
  | .opa    => s.regs.opa
  | .opb    => s.regs.opb
  | .res    => if coreBusy s then 0 else s.res
  | .tagIn  => s.regs.tagIn
  | .tagOut => if coreBusy s then 0 else s.tagOut

/-- Host read of DOUT: 0x00 while busy and at or above OUT_LEN (R29, R46); below it the byte the core wrote. -/
def hostReadDout (i : Nat) (s : State) : Except Refusal Byte :=
  if coreBusy s then .ok 0
  else if i < s.outLen.toNat then
    match Memory.read s.dout i with
    | some v => .ok v
    | none => .error (.unwrittenByte .dout i)
  else .ok 0

/-- Host read of a buffer byte: the input buffers read as 0x00 (R30). -/
def hostReadByte (b : Buf) (i : Nat) (s : State) : Except Refusal Byte :=
  match b with
  | .key   => .ok 0
  | .nonce => .ok 0
  | .aad   => .ok 0
  | .din   => .ok 0
  | .dout  => hostReadDout i s

/-- Host write of a 64-bit register: dropped while busy (R46); OUT_LEN ignores writes. -/
def hostWrite64 (r : Reg64) (v : Word64) (s : State) : State :=
  if coreBusy s then s
  else
    match r with
    | .keyLen   => { s with regs := { s.regs with keyLen := v } }
    | .nonceLen => { s with regs := { s.regs with nonceLen := v } }
    | .aadLen   => { s with regs := { s.regs with aadLen := v } }
    | .dataLen  => { s with regs := { s.regs with dataLen := v } }
    | .outLen   => s

/-- Host write of a 128-bit register: dropped while busy (R46); RES and TAG_OUT ignore writes. -/
def hostWrite128 (r : Reg128) (v : Block) (s : State) : State :=
  if coreBusy s then s
  else
    match r with
    | .opa    => { s with regs := { s.regs with opa := v } }
    | .opb    => { s with regs := { s.regs with opb := v } }
    | .res    => s
    | .tagIn  => { s with regs := { s.regs with tagIn := v } }
    | .tagOut => s

/-- The index exists in a buffer of this capacity (R27). -/
def indexExists (i : Nat) : Option Nat → Bool
  | none => true
  | some cap => decide (i < cap)

/-- The capacity of a buffer; KEY has none of its own (R27), and `CAP_DATA` bounds both DIN and DOUT. -/
def capacityOf (P : Params) : Buf → Option Nat
  | .key   => none
  | .nonce => P.capNonce
  | .aad   => P.capAad
  | .din   => P.capData
  | .dout  => P.capData

/-- The input buffers with one byte written; DOUT is not the host's to write (R29). -/
def writeInput (b : Buf) (i : Nat) (v : Byte) (bufs : InputBufs) : InputBufs :=
  match b with
  | .key   => { bufs with key := Memory.write bufs.key i v }
  | .nonce => { bufs with nonce := Memory.write bufs.nonce i v }
  | .aad   => { bufs with aad := Memory.write bufs.aad i v }
  | .din   => { bufs with din := Memory.write bufs.din i v }
  | .dout  => bufs

/-- Host write of a buffer byte: dropped while busy (R46), without effect on DOUT (R29, log entry 7); an index at or
above a set capacity does not exist (R27, log entry 8). -/
def hostWriteByte (P : Params) (b : Buf) (i : Nat) (v : Byte) (s : State) : Host.Outcome State Fault Refusal :=
  if coreBusy s then .next s
  else if b = .dout then .next s
  else if indexExists i (capacityOf P b) then .next { s with bufs := writeInput b i v s.bufs }
  else .fault (.indexOutOfRange b i)

/-- An accepted command word, run as one step: an illegal word completes with ILLEGAL_CMD (R92, R94). -/
def runCommand (w : Word32) (s : State) : Host.Outcome State Fault Refusal :=
  match decode w with
  | .command i => exec i s
  | .illegal _ => .next (raiseErr .illegalCmd (start w s))

/-- Host write of CMD: not accepted while busy (R22, R46); otherwise START, as one step or phase by phase. -/
def hostWriteCmd (w : Word32) (s : State) : Host.Outcome State Fault Refusal :=
  if coreBusy s then .next s
  else if s.split then .next (start w s)
  else runCommand w s

/-- Host write of a 32-bit register: CMD is START, STATUS ignores writes. -/
def hostWrite32 (r : Reg32) (v : Word32) (s : State) : Host.Outcome State Fault Refusal :=
  match r with
  | .cmd    => hostWriteCmd v s
  | .status => .next s

/-- The reset input (R240, R241): every register, buffer and hidden register takes its reset value, whatever the core
was doing. The host's own lists and the schedule stay: they are no state of the core (log entries 1, 2 and 6). -/
def resetCore (s : State) : State :=
  { State.reset with pending := s.pending, replies := s.replies, split := s.split }

/-- A reply joins the host's record. -/
def reply (a : HostReply) (s : State) : State := { s with replies := s.replies ++ [a] }

/-- The core left to itself for one step: one tick if busy, nothing if idle (R32). -/
def coreStep (P : Params) (s : State) : Host.Outcome State Fault Refusal :=
  if coreBusy s then tick P s else .next s

/-- Host read of a buffer byte, with its reply. -/
def replyByte (b : Buf) (i : Nat) (s : State) : Host.Outcome State Fault Refusal :=
  match hostReadByte b i s with
  | .ok v => .next (reply (.byte b i v) s)
  | .error r => .refused r

/-- One host action on the state whose `pending` holds the actions after it (R76). `wait` reads STATUS until DONE is 1
(R97): until then it stays, and the core goes on. -/
def hostAction (P : Params) (a : HostAction) (s : State) : Host.Outcome State Fault Refusal :=
  match a with
  | .write32 r v => hostWrite32 r v s
  | .write64 r v => .next (hostWrite64 r v s)
  | .write128 r v => .next (hostWrite128 r v s)
  | .writeByte b i v => hostWriteByte P b i v s
  | .read32 r => .next (reply (.reg32 r (hostRead32 r s)) s)
  | .read64 r => .next (reply (.reg64 r (hostRead64 r s)) s)
  | .read128 r => .next (reply (.reg128 r (hostRead128 r s)) s)
  | .readByte b i => replyByte b i s
  | .wait => if Status.done (hostRead32 .status s) then .next s else coreStep P { s with pending := .wait :: s.pending }
  | .pause => coreStep P s
  | .reset => .next (resetCore s)

end Sys2Proof.Machine
end

