-- ==== Sys2Proof/Machine/Step.lean ====
section
/-!
DEFINITION. One step of the machine: the next host action, or the core alone when there is none.
-/

namespace Sys2Proof.Machine

/-- One step (R5, R76): the host action at the head of `pending`; with none pending the core goes on if busy, and an
idle machine stays as it is. -/
def step (s : State) : Host.Outcome State Fault Refusal :=
  match s.pending with
  | [] => coreStep Config.params s
  | a :: rest => hostAction Config.params a { s with pending := rest }

/-- `s` with a host write of the command word to CMD as the next host action, to be run as one step (log entry 11). A
busy core would not accept it (R46), so its STATUS is made idle; START clears whatever else it was doing (R92). -/
def State.withFetchWord (s : State) (nbits w : Nat) : State :=
  { s with
    pending := .write32 .cmd (BitVec.ofNat 32 (w % 2 ^ nbits)) :: s.pending
    status := if coreBusy s then 0 else s.status
    split := false }

end Sys2Proof.Machine
end

