-- ==== Sys2Proof/Machine/Script.lean ====
section
/-!
DEFINITION. The host-script notation (R97, R98): statements, and the host actions each stands for.
-/

namespace Sys2Proof.Machine

/-- The buffers a script may write (R97). -/
inductive InBuf where
  | key
  | nonce
  | aad
  | din
deriving DecidableEq, Repr

/-- The statements of R97 and the pseudo-statements of R98. -/
inductive Stmt where
  | wr32  (r : Reg32) (v : Word32)
  | wr64  (r : Reg64) (v : Word64)
  | wr128 (r : Reg128) (v : Block)
  | wb    (b : InBuf) (off : Nat) (bytes : List Byte)
  | go    (i : Instr)
  | goW   (w : Word32)
  | wait
  | rd32  (r : Reg32)
  | rd64  (r : Reg64)
  | rd128 (r : Reg128)
  | rb    (off n : Nat)
  | set   (b : InBuf) (bytes : List Byte)
  | run   (i : Instr)
deriving DecidableEq, Repr

/-- The buffer of a script name. -/
def InBuf.buf : InBuf → Buf
  | .key   => .key
  | .nonce => .nonce
  | .aad   => .aad
  | .din   => .din

/-- The length register that `SET` writes (R98). -/
def InBuf.lenReg : InBuf → Reg64
  | .key   => .keyLen
  | .nonce => .nonceLen
  | .aad   => .aadLen
  | .din   => .dataLen

/-- `WB buf, off, hexbytes` (R97). -/
def writeActions (b : InBuf) : Nat → List Byte → List HostAction
  | _, [] => []
  | off, v :: vs => .writeByte b.buf off v :: writeActions b (off + 1) vs

/-- The host actions of a statement (R97, R98). -/
def Stmt.actions : Stmt → List HostAction
  | .wr32 r v => [.write32 r v]
  | .wr64 r v => [.write64 r v]
  | .wr128 r v => [.write128 r v]
  | .wb b off bytes => writeActions b off bytes
  | .go i => [.write32 .cmd (encode i)]
  | .goW w => [.write32 .cmd w]
  | .wait => [.wait]
  | .rd32 r => [.read32 r]
  | .rd64 r => [.read64 r]
  | .rd128 r => [.read128 r]
  | .rb off n => (List.range n).map fun j => .readByte .dout (off + j)
  | .set b bytes => writeActions b 0 bytes ++ [.write64 b.lenReg (BitVec.ofNat 64 bytes.length)]
  | .run i => [.write32 .cmd (encode i), .wait]

/-- The host actions of a script. -/
def scriptActions (script : List Stmt) : List HostAction := script.flatMap Stmt.actions

/-- The state with a script as the host's actions to come. -/
def withScript (script : List Stmt) (s : State) : State := { s with pending := scriptActions script }

end Sys2Proof.Machine
end

