-- ==== Sys2Proof/Safety.lean ====
section
/-!
DEFINITION. What the claims speak of: the machine's invariant, what the host can see, the sessions a command admits, and
the polynomial a Field Element stands for.
-/

namespace Sys2Proof.Machine

/-- RES, TAG_OUT, OUT_LEN and DOUT hold nothing (R26, R29, R216). -/
def outputsBlank (s : State) : Prop := s.res = 0 ∧ s.tagOut = 0 ∧ s.outLen = 0 ∧ s.dout = []

/-- How many bytes of OBUF the command has staged in its present phase (R67, R180, R188). -/
def stagedLen (i : Instr) (s : State) : Nat :=
  match i, s.hidden.phase with
  | .gcmEnc, .keystream => min (16 * s.hidden.blk.toNat) s.regs.dataLen.toNat
  | .gcmEnc, .hashA     => s.regs.dataLen.toNat
  | .gcmEnc, .hashC     => s.regs.dataLen.toNat
  | .gcmEnc, .hashL     => s.regs.dataLen.toNat
  | .gcmEnc, .tag       => s.regs.dataLen.toNat
  | .gcmEnc, .publish   => s.regs.dataLen.toNat
  | .gcmDec, .keystream => min (16 * s.hidden.blk.toNat) s.regs.dataLen.toNat
  | .gcmDec, .compare   => s.regs.dataLen.toNat
  | .gcmDec, .publish   => s.regs.dataLen.toNat
  | _, _                => 0

/-- The invariant of the machine. -/
structure Invariant (s : State) : Prop where
  /-- Every buffer is in canonical form. -/
  memories : memoriesWf s = true
  /-- STATUS is idle, busy or done, with a code the rules produce and its reserved bits 0 (R25, R210). -/
  status : Status.legal s.status = true
  /-- PHASE = IDLE exactly when BUSY = 0 (R32). -/
  phase : s.hidden.phase = .idle ↔ coreBusy s = false
  /-- The hidden state is zero whenever BUSY = 0 (R38). -/
  hiddenClear : coreBusy s = false → s.hidden = Hidden.zero
  /-- Nothing is published while BUSY = 1 (R26, R29). -/
  busyBlank : coreBusy s = true → outputsBlank s
  /-- DOUT holds exactly the bytes of index below OUT_LEN (R29). -/
  doutExtent : s.dout.map Prod.fst = List.range s.outLen.toNat
  /-- An error leaves no result (R216), and before the first command there is none (R47). -/
  errorBlank : Status.err s.status = true ∨ s.status = 0 → outputsBlank s
  /-- A busy core with an illegal word is in CHECK (R92). -/
  illegalInCheck : coreBusy s = true → ∀ why, decode s.cmd = .illegal why → s.hidden.phase = .check
  /-- A busy core is in a phase its command passes through (R32). -/
  phaseOfCommand : coreBusy s = true → ∀ i, decode s.cmd = .command i → s.hidden.phase ∈ commandPhases i
  /-- OBUF holds exactly the bytes staged so far (R36, R67). -/
  staged : coreBusy s = true → ∀ i, decode s.cmd = .command i →
    s.hidden.obuf.map Prod.fst = List.range (stagedLen i s)

/-- The state GHASH is started in has admissible lengths, and `op` is what its buffers hold (R93, R137). -/
structure GhashSession (s : State) (op : GhashOperands) : Prop where
  aadFits  : s.regs.aadLen.toNat ≤ 2 ^ 61 - 1
  dataFits : s.regs.dataLen.toNat ≤ 2 ^ 61 - 1
  aadLen   : op.aad.length = s.regs.aadLen.toNat
  dataLen  : op.data.length = s.regs.dataLen.toNat
  aad      : ∀ j v, op.aad[j]? = some v → Memory.read s.bufs.aad j = some v
  data     : ∀ j v, op.data[j]? = some v → Memory.read s.bufs.din j = some v

/-- The state GCM_ENC or GCM_DEC is started in passes the admission checks with the default parameters, and `op` is what
its buffers hold (R93, R171, R172). -/
structure GcmSession (s : State) (op : GcmOperands) : Prop where
  keyLegal  : s.regs.keyLen.toNat = 32
  nonceHeld : 1 ≤ s.regs.nonceLen.toNat
  nonceFits : s.regs.nonceLen.toNat ≤ 2 ^ 61 - 1
  aadFits   : s.regs.aadLen.toNat ≤ 2 ^ 61 - 1
  dataFits  : s.regs.dataLen.toNat ≤ 2 ^ 36 - 32
  keyLen    : op.key.length = s.regs.keyLen.toNat
  nonceLen  : op.nonce.length = s.regs.nonceLen.toNat
  aadLen    : op.aad.length = s.regs.aadLen.toNat
  dataLen   : op.data.length = s.regs.dataLen.toNat
  key       : ∀ j v, op.key[j]? = some v → Memory.read s.bufs.key j = some v
  nonce     : ∀ j v, op.nonce[j]? = some v → Memory.read s.bufs.nonce j = some v
  aad       : ∀ j v, op.aad[j]? = some v → Memory.read s.bufs.aad j = some v
  data      : ∀ j v, op.data[j]? = some v → Memory.read s.bufs.din j = some v

/-- The state at completion of command word `w`, with the published values given: everything else is as it was at START,
the hidden state is cleared (R37, R92). -/
def completed (w : Word32) (status : Word32) (res tagOut : Block) (outLen : Word64) (dout : Memory)
    (requests : List CipherRequest) (s : State) : State :=
  { s with
    cmd := w
    status := status
    res := res
    tagOut := tagOut
    outLen := outLen
    dout := dout
    hidden := Hidden.zero
    requests := requests }

/-- The input buffers `bufs'` are `bufs` with byte `i` of input buffer `b` written: every other byte of every input buffer is as before. For
DOUT, which is no input buffer, nothing is written (R27, R28). -/
def ByteWritten (b : Buf) (i : Nat) (v : Byte) (bufs bufs' : InputBufs) : Prop :=
  (∀ j, Memory.read bufs'.key j = if b = .key ∧ j = i then some v else Memory.read bufs.key j) ∧
  (∀ j, Memory.read bufs'.nonce j = if b = .nonce ∧ j = i then some v else Memory.read bufs.nonce j) ∧
  (∀ j, Memory.read bufs'.aad j = if b = .aad ∧ j = i then some v else Memory.read bufs.aad j) ∧
  (∀ j, Memory.read bufs'.din j = if b = .din ∧ j = i then some v else Memory.read bufs.din j)

/-- Some byte of a buffer below its length that nothing has written (R28, U7). -/
def HasUnwritten (m : Memory) (len : Word64) : Prop := ∃ j, j < len.toNat ∧ Memory.read m j = none

/-- The polynomial over GF(2) that a Field Element stands for: the coefficient of x^k is bit 127 − k (R9). -/
def StandsFor (v : Block) (p : Polynomial (ZMod 2)) : Prop :=
  ∀ k, p.coeff k = if k < 128 ∧ v.getLsbD (127 - k) = true then 1 else 0

/-- What the host can see of the core but the registers it wrote itself is the same in two states (R46, R191). -/
structure SameOutputs (s t : State) : Prop where
  status : s.status = t.status
  res    : s.res = t.res
  tagOut : s.tagOut = t.tagOut
  outLen : s.outLen = t.outLen
  dout   : s.dout = t.dout
  hidden : s.hidden = t.hidden

/-- Two commands ended alike: with the same outputs, CMD and cipher requests, or stopped for the same reason (R38). -/
def SameResult : Host.Outcome State Fault Refusal → Host.Outcome State Fault Refusal → Prop
  | .next s, .next t => SameOutputs s t ∧ s.cmd = t.cmd ∧ s.requests = t.requests
  | .fault f, .fault g => f = g
  | .refused r, .refused q => r = q
  | _, _ => False

/-- `H^n` under `gf_mul`. -/
def gfPow (h : Block) : Nat → Block
  | 0 => fieldOne
  | n + 1 => gfMul (gfPow h n) h

/-- The sum of a list of Field Elements. -/
def gfSum (vs : List Block) : Block := vs.foldr (fun v acc => v ^^^ acc) 0

/-- The first `n` bytes of two buffers are the same, written or not (R28). -/
def SameBytes (n : Nat) (a b : Memory) : Prop := ∀ j, j < n → Memory.read a j = Memory.read b j

end Sys2Proof.Machine
end

