-- ==== Sys2Proof/Certificates/Slice0/Obligations.lean ====
section
/-!
DEFINITION. The statements for the provers. Each docstring says which rule of spec/ it formalises.
STATUS words are written as numbers: 0x002 is DONE; 0x00A is DONE and AUTH_OK; 0x<c>06 is DONE, ERR and ERR_CODE c (R25).
-/

open Sys2Proof Sys2Proof.Machine

/-! ## Command words and the step -/

/-- R91, R94: the six words of the opcode map, and the illegal words of 95_test_vectors.md section 2.12. -/
def Obligations.WrittenWordsDecode : Prop :=
  decode 0x00000001#32 = .command .gfAdd ∧
  decode 0x00000002#32 = .command .gfMul ∧
  decode 0x00000003#32 = .command .inc32 ∧
  decode 0x00000004#32 = .command .ghash ∧
  decode 0x00000010#32 = .command .gcmEnc ∧
  decode 0x00000011#32 = .command .gcmDec ∧
  decode 0x00000000#32 = .illegal (.unassignedOpcode 0x00#8) ∧
  decode 0x00000005#32 = .illegal (.unassignedOpcode 0x05#8) ∧
  decode 0x00000012#32 = .illegal (.unassignedOpcode 0x12#8) ∧
  decode 0x000000FF#32 = .illegal (.unassignedOpcode 0xFF#8) ∧
  decode 0x00000102#32 = .illegal .zeroFieldNotClear ∧
  decode 0x80000010#32 = .illegal .zeroFieldNotClear

/-- R91, R94, R96: over all 2^32 words, a word decodes to a command exactly when it is that command's word, and it is
illegal exactly when it is none of the six. -/
def Obligations.DecodeInvertsEncode : Prop :=
  (∀ i : Instr, Instr.wellFormed i = true → decode (encode i) = .command i ∧
    (FormatC.ofWord (encode i)).wellFormed = true) ∧
  (∀ (i : Instr) (w : Word32), decode w = .command i ↔ w = encode i) ∧
  ∀ w : Word32, (∃ why, decode w = .illegal why) ↔
    w ≠ 0x01#32 ∧ w ≠ 0x02#32 ∧ w ≠ 0x03#32 ∧ w ≠ 0x04#32 ∧ w ≠ 0x10#32 ∧ w ≠ 0x11#32

/-- R22, R92, R46: a host write of a command word, taken by an idle core that runs commands as one step, runs `exec` of
the decoded command; with commands split into phases it does START alone; a busy core drops it. -/
def Obligations.StepRunsDecodedCommand : Prop :=
  ∀ (s : State) (w : Word32) (i : Instr) (rest : List HostAction),
    s.pending = .write32 .cmd w :: rest → decode w = .command i →
    (coreBusy s = false → s.split = false → step s = exec i { s with pending := rest }) ∧
    (coreBusy s = false → s.split = true → step s = .next (start w { s with pending := rest })) ∧
    (coreBusy s = true → step s = .next { s with pending := rest })

/-- The model's own entry for a program's first word (log entry 11): the very next step runs the decoded command. -/
def Obligations.FetchWordRunsNext : Prop :=
  ∀ (s : State) (nbits w : Nat) (i : Instr), decodeTableWord nbits w = some i →
    step (s.withFetchWord nbits w) =
      exec i { s with status := if coreBusy s then 0 else s.status, split := false }

/-- R92: START, as the step shows it when commands are split into phases, with every field it clears. -/
def Obligations.StartClearsOutputsAndHidden : Prop :=
  ∀ (s : State) (w : Word32) (rest : List HostAction),
    s.pending = .write32 .cmd w :: rest → coreBusy s = false → s.split = true →
    ∃ t, step s = .next t ∧
      t.cmd = w ∧ t.status = 0x00000001#32 ∧ t.res = 0 ∧ t.tagOut = 0 ∧ t.outLen = 0 ∧ t.dout = [] ∧
      t.hidden = { Hidden.zero with phase := .check } ∧ t.regs = s.regs ∧ t.bufs = s.bufs ∧
      t.pending = rest ∧ t.replies = s.replies ∧
      (∀ why, decode w = .illegal why →
        tick Config.params t = .next (completed w 0x00000906#32 0 0 0 [] [] { s with pending := rest }))

/-- R94: an illegal word is a START that completes with ILLEGAL_CMD, without a cipher request and without a result. -/
def Obligations.IllegalWordCompletesWithCodeNine : Prop :=
  ∀ (s : State) (w : Word32) (rest : List HostAction),
    w ≠ 0x01#32 → w ≠ 0x02#32 → w ≠ 0x03#32 → w ≠ 0x04#32 → w ≠ 0x10#32 → w ≠ 0x11#32 →
    s.pending = .write32 .cmd w :: rest → coreBusy s = false → s.split = false →
    step s = .next (completed w 0x00000906#32 0 0 0 [] [] { s with pending := rest })

/-! ## Field Elements: GF_ADD and GF_MUL -/

/-- R110: field addition is xor, bit by bit; commutative, associative, self-inverse, with identity 0. -/
def Obligations.FieldAdditionIsXor : Prop :=
  ∀ a b c : Block,
    (∀ k, (gfAdd a b).getLsbD k = (a.getLsbD k ^^ b.getLsbD k)) ∧
    gfAdd a b = gfAdd b a ∧ gfAdd (gfAdd a b) c = gfAdd a (gfAdd b c) ∧ gfAdd a a = 0 ∧ gfAdd a 0 = a

/-- R111: the command GF_ADD, for every state: RES is OPA xor OPB, nothing else but CMD, STATUS and what START clears
changes. -/
def Obligations.GfAddPublishesXor : Prop :=
  decode 0x00000001#32 = .command .gfAdd ∧
  (∀ s : State, exec .gfAdd s =
    .next (completed 0x00000001#32 0x00000002#32 (s.regs.opa ^^^ s.regs.opb) 0 0 [] [] s)) ∧
  (∀ s : State, s.regs.opa = s.regs.opb → exec .gfAdd s = .next (completed 0x00000001#32 0x00000002#32 0 0 0 [] [] s)) ∧
  (∀ s : State, s.regs.opb = 0 →
    exec .gfAdd s = .next (completed 0x00000001#32 0x00000002#32 s.regs.opa 0 0 [] [] s)) ∧
  (∀ s : State, s.regs.opa = 0x0388dace60b6a392f328c2b971b2fe78#128 →
    s.regs.opb = 0x66e94bd4ef8a2c3b884cfa59ca342b2e#128 →
    exec .gfAdd s = .next (completed 0x00000001#32 0x00000002#32 0x6561911a8f3c8fa97b6438e0bb86d556#128 0 0 [] [] s))

/-- R113: one iteration of the multiplier, where it starts, that the product is in Z when MI is 128, and that no host read
shows Z, V or MI. -/
def Obligations.MultiplierIteration : Prop :=
  (∀ (b : Block) (m : Multiplier), m.mi.toNat < 128 →
    (mulStep b m).z = m.z ^^^ (if b.getLsbD (127 - m.mi.toNat) then m.v else 0) ∧
    (mulStep b m).v = (m.v >>> 1) ^^^ (if m.v.getLsbD 0 then 0xE1000000000000000000000000000000#128 else 0) ∧
    (mulStep b m).mi.toNat = m.mi.toNat + 1) ∧
  (∀ a : Block, mulLoad a = { z := 0, v := a, mi := 0 }) ∧
  (∀ a b : Block, (mulSteps b 128 (mulLoad a)).mi = 128#8 ∧ (mulSteps b 128 (mulLoad a)).z = gfMul a b) ∧
  (∀ (s : State) (m : Multiplier),
    let t : State := { s with hidden := { s.hidden with mul := m } }
    (∀ r, hostRead32 r t = hostRead32 r s) ∧ (∀ r, hostRead64 r t = hostRead64 r s) ∧
    (∀ r, hostRead128 r t = hostRead128 r s) ∧ ∀ b i, hostReadByte b i t = hostReadByte b i s)

/-- R115: before iteration i, V is a·x^i and Z is a times the part of b below x^i, both reduced modulo
x^128 + x^7 + x^2 + x + 1; and the result is the reduced product. -/
def Obligations.MultiplierLoopKeepsReducedProducts : Prop :=
  ∀ (a b : Block) (p q : Polynomial (ZMod 2)), StandsFor a p → StandsFor b q →
    (∀ i, i ≤ 128 →
      StandsFor (mulSteps b i (mulLoad a)).v
        ((p * Polynomial.X ^ i) %ₘ
          (Polynomial.X ^ 128 + Polynomial.X ^ 7 + Polynomial.X ^ 2 + Polynomial.X + 1)) ∧
      StandsFor (mulSteps b i (mulLoad a)).z
        ((p * ∑ k ∈ Finset.range i, if b.getLsbD (127 - k) then Polynomial.X ^ k else 0) %ₘ
          (Polynomial.X ^ 128 + Polynomial.X ^ 7 + Polynomial.X ^ 2 + Polynomial.X + 1))) ∧
    StandsFor (gfMul a b)
      ((p * q) %ₘ (Polynomial.X ^ 128 + Polynomial.X ^ 7 + Polynomial.X ^ 2 + Polynomial.X + 1))

/-- R117: with xor as addition the Field Elements are a field: multiplication is commutative and associative, distributes
over addition, 0 absorbs, ONE is its identity (the identity that R118 names), and every nonzero element has an inverse. -/
def Obligations.FieldMultiplicationLaws : Prop :=
  (∀ a b : Block, gfMul a b = gfMul b a) ∧
  (∀ a b c : Block, gfMul (gfMul a b) c = gfMul a (gfMul b c)) ∧
  (∀ a b c : Block, gfMul (a ^^^ b) c = gfMul a c ^^^ gfMul b c) ∧
  (∀ a b c : Block, gfMul a (b ^^^ c) = gfMul a b ^^^ gfMul a c) ∧
  (∀ a : Block, gfMul a 0 = 0 ∧ gfMul 0 a = 0) ∧
  (∀ a : Block, gfMul a 0x80000000000000000000000000000000#128 = a) ∧
  (∀ a : Block, a ≠ 0 → ∃ b : Block, gfMul a b = 0x80000000000000000000000000000000#128)

/-- R118: ONE, bit 127 alone, is the identity; the integer 1 is the polynomial x^127 and is not. -/
def Obligations.OneIsTheIdentity : Prop :=
  (∀ a : Block, gfMul a 0x80000000000000000000000000000000#128 = a ∧
    gfMul 0x80000000000000000000000000000000#128 a = a) ∧
  StandsFor 0x80000000000000000000000000000000#128 1 ∧
  StandsFor 0x00000000000000000000000000000001#128 (Polynomial.X ^ 127) ∧
  ∃ a : Block, gfMul a 0x00000000000000000000000000000001#128 ≠ a

/-- R116: the command GF_MUL, for every state, and the corner cases of its table. -/
def Obligations.GfMulPublishesProduct : Prop :=
  decode 0x00000002#32 = .command .gfMul ∧
  (∀ s : State, exec .gfMul s =
    .next (completed 0x00000002#32 0x00000002#32 (gfMul s.regs.opa s.regs.opb) 0 0 [] [] s)) ∧
  (∀ a : Block, gfMul a 0 = 0 ∧ gfMul 0 a = 0 ∧ gfMul a 0x80000000000000000000000000000000#128 = a) ∧
  gfMul 0x80000000000000000000000000000000#128 0x80000000000000000000000000000000#128 =
    0x80000000000000000000000000000000#128 ∧
  gfMul 0x00000000000000000000000000000001#128 0x40000000000000000000000000000000#128 =
    0xE1000000000000000000000000000000#128 ∧
  gfMul 0x40000000000000000000000000000000#128 0x00000000000000000000000000000001#128 =
    0xE1000000000000000000000000000000#128 ∧
  gfMul 0x00000000000000000000000000000001#128 0x00000000000000000000000000000001#128 =
    0xE6080000000000000000000000000003#128 ∧
  gfMul 0x0388dace60b6a392f328c2b971b2fe78#128 0x66e94bd4ef8a2c3b884cfa59ca342b2e#128 =
    0x5e2ec746917062882c85b0685353deb7#128

/-! ## The counter: INC32 and Y0 -/

/-- R150, R151: the increment, bits 31:0 plus 1 modulo 2^32 and bits 127:32 untouched; and the command INC32, for every
state. -/
def Obligations.Inc32PublishesIncrement : Prop :=
  decode 0x00000003#32 = .command .inc32 ∧
  (∀ y : Block, (inc32 y).extractLsb' 32 96 = y.extractLsb' 32 96 ∧
    ((inc32 y).extractLsb' 0 32).toNat = ((y.extractLsb' 0 32).toNat + 1) % 2 ^ 32) ∧
  (∀ s : State, exec .inc32 s = .next (completed 0x00000003#32 0x00000002#32 (inc32 s.regs.opa) 0 0 [] [] s)) ∧
  (∀ s : State, s.regs.opa = 0xFFFFFFFFFFFFFFFFFFFFFFFFFFFFFFFF#128 → exec .inc32 s =
    .next (completed 0x00000003#32 0x00000002#32 0xFFFFFFFFFFFFFFFFFFFFFFFF00000000#128 0 0 [] [] s)) ∧
  (∀ s : State, s.regs.opa = 0xcafebabefacedbaddecaf888ffffffff#128 → exec .inc32 s =
    .next (completed 0x00000003#32 0x00000002#32 0xcafebabefacedbaddecaf88800000000#128 0 0 [] [] s))

/-- R157: the closed form of the counter blocks. -/
def Obligations.CounterClosedForm : Prop :=
  ∀ (y0 : Block) (i : Nat),
    (counterBlock y0 i).extractLsb' 32 96 = y0.extractLsb' 32 96 ∧
    ((counterBlock y0 i).extractLsb' 0 32).toNat = ((y0.extractLsb' 0 32).toNat + i) % 2 ^ 32

/-- R158: within a session, of at most 2^32 − 2 data blocks, the counter blocks Y0 to Yn are pairwise distinct, wrap or
no wrap; with a 12-byte nonce the counter never wraps; with another it can, and the prefix stays. -/
def Obligations.CounterBlocksDistinct : Prop :=
  (∀ (y0 : Block) (i j n : Nat), n ≤ 2 ^ 32 - 2 → i < j → j ≤ n → counterBlock y0 i ≠ counterBlock y0 j) ∧
  (∀ (h : Block) (nonce : List Byte) (i : Nat), nonce.length = 12 → i ≤ 2 ^ 32 - 2 →
    ((counterBlock (deriveY0 h nonce) i).extractLsb' 0 32).toNat = i + 1) ∧
  (∃ (h : Block) (nonce : List Byte), nonce.length = 16 ∧
    counterBlock (deriveY0 h nonce) 1 = 0x0123456789abcdeffedcba98ffffffff#128 ∧
    counterBlock (deriveY0 h nonce) 2 = 0x0123456789abcdeffedcba9800000000#128)

/-- R152, R153: a nonce of 12 bytes stands before the counter 1; every other nonce is hashed. -/
def Obligations.InitialCounterBlock : Prop :=
  (∀ (h : Block) (nonce : List Byte), nonce.length = 12 →
    (deriveY0 h nonce).toNat = intBe nonce * 2 ^ 32 + 1 ∧
    be128 (deriveY0 h nonce) = nonce ++ [0x00#8, 0x00#8, 0x00#8, 0x01#8]) ∧
  (∀ (h : Block) (nonce : List Byte), nonce.length ≠ 12 → deriveY0 h nonce = ghash h [] nonce)

/-! ## Bytes, blocks and GHASH -/

/-- R60: byte j of a 16-byte block is bits 127 − 8j down to 120 − 8j, and the two directions are inverse. -/
def Obligations.BlockBytesAreBigEndian : Prop :=
  (∀ s : List Byte, s.length = 16 →
    be128 (blockOfBytes s) = s ∧
    (blockOfBytes s).toNat = ∑ j ∈ Finset.range 16, (s.getD j 0).toNat * 2 ^ (8 * (15 - j))) ∧
  (∀ v : Block, (be128 v).length = 16 ∧ blockOfBytes (be128 v) = v ∧
    ∀ j, j < 16 → (be128 v).getD j 0 = v.extractLsb' (120 - 8 * j) 8)

/-- R62, R63: `segment` cuts into ceil(L/16) blocks, pads the last one on the right with zero bytes only, and gives no
block for no byte and no spurious block for a multiple of 16. -/
def Obligations.SegmentPadsOnTheRight : Prop :=
  ∀ s : List Byte,
    (segmentBlocks s).length = (s.length + 15) / 16 ∧
    (∀ k, k < (s.length + 15) / 16 →
      be128 ((segmentBlocks s).getD k 0) =
        (s.drop (16 * k)).take 16 ++ List.replicate (16 - min 16 (s.length - 16 * k)) 0x00#8) ∧
    (segmentBlocks s).flatMap be128 = s ++ List.replicate (16 * ((s.length + 15) / 16) - s.length) 0x00#8 ∧
    (s.length = 0 → lastLen s.length = 0) ∧
    (s.length > 0 → s.length % 16 = 0 → lastLen s.length = 16) ∧
    (s.length % 16 ≠ 0 → lastLen s.length = s.length % 16)

/-- R131, R132, R133, R134, R135: GHASH absorbs the associated data's blocks, the data's blocks and the length block, in
this order, from zero, adding before it multiplies; the length block holds the unpadded bit lengths. -/
def Obligations.GhashAbsorbsInOrder : Prop :=
  ∀ (h : Block) (a c : List Byte), a.length ≤ 2 ^ 61 - 1 → c.length ≤ 2 ^ 61 - 1 →
    ∃ l : Block, l.toNat = 8 * a.length * 2 ^ 64 + 8 * c.length ∧
      ghash h a c = (segmentBlocks a ++ segmentBlocks c ++ [l]).foldl (fun x b => gfMul (x ^^^ b) h) 0 ∧
      (segmentBlocks a ++ segmentBlocks c ++ [l]).length = (a.length + 15) / 16 + (c.length + 15) / 16 + 1

/-- R135: the restructuring with powers of H that the rule allows: GHASH is the sum of each block times H to the power
of its distance from the end. -/
def Obligations.GhashIsPolynomialInSubkey : Prop :=
  ∀ (h : Block) (a c : List Byte), a.length ≤ 2 ^ 61 - 1 → c.length ≤ 2 ^ 61 - 1 →
    ∃ l : Block, l.toNat = 8 * a.length * 2 ^ 64 + 8 * c.length ∧
      ghash h a c =
        gfSum ((segmentBlocks a ++ segmentBlocks c ++ [l]).mapIdx fun i b =>
          gfMul b (gfPow h ((a.length + 15) / 16 + (c.length + 15) / 16 + 1 - i)))

/-- R138: the edge cases of GHASH. -/
def Obligations.GhashEdgeCases : Prop :=
  (∀ h : Block, ghash h [] [] = 0) ∧
  (∀ a c : List Byte, ghash 0 a c = 0) ∧
  (∃ (h : Block) (a c : List Byte), a.length % 16 = 0 ∧ ghash h a c ≠ ghash h [] (a ++ c))

/-- R136: the command GHASH, for every state with admissible lengths whose bytes have been written: RES is the hash under
OPA. It raises no error but those of R137. -/
def Obligations.GhashPublishesHash : Prop :=
  decode 0x00000004#32 = .command .ghash ∧
  (∀ (s : State) (op : GhashOperands), GhashSession s op →
    exec .ghash s =
      .next (completed 0x00000004#32 0x00000002#32 (ghash s.regs.opa op.aad op.data) 0 0 [] [] s)) ∧
  (∀ s : State, s.regs.aadLen = 0 → s.regs.dataLen = 0 →
    exec .ghash s = .next (completed 0x00000004#32 0x00000002#32 0 0 0 [] [] s)) ∧
  (∀ s t : State, exec .ghash s = .next t → Status.err t.status = true →
    Status.errCode t.status = 4#4 ∨ Status.errCode t.status = 5#4 ∨ Status.errCode t.status = 7#4) ∧
  ghash 0x66e94bd4ef8a2c3b884cfa59ca342b2e#128 []
    [0x03#8, 0x88#8, 0xda#8, 0xce#8, 0x60#8, 0xb6#8, 0xa3#8, 0x92#8, 0xf3#8, 0x28#8, 0xc2#8, 0xb9#8, 0x71#8, 0xb2#8,
      0xfe#8, 0x78#8] = 0xf38cbb1ad69223dcc3457ae5b6b0f885#128

/-- R137: the admission checks of GHASH, in order, for every choice of capacities; each ends the command before any
buffer byte is read; and when none fails there is no error. -/
def Obligations.GhashAdmissionErrors : Prop :=
  (∀ s : State, exec .ghash s = ghashWith Config.params s) ∧
  ∀ (P : Params) (s : State),
    (s.regs.aadLen.toNat > 2 ^ 61 - 1 →
      ghashWith P s = .next (completed 0x00000004#32 0x00000406#32 0 0 0 [] [] s)) ∧
    (s.regs.aadLen.toNat ≤ 2 ^ 61 - 1 → s.regs.dataLen.toNat > 2 ^ 61 - 1 →
      ghashWith P s = .next (completed 0x00000004#32 0x00000506#32 0 0 0 [] [] s)) ∧
    (s.regs.aadLen.toNat ≤ 2 ^ 61 - 1 → s.regs.dataLen.toNat ≤ 2 ^ 61 - 1 →
      ((∃ cap, P.capAad = some cap ∧ s.regs.aadLen.toNat > cap) ∨
        (∃ cap, P.capData = some cap ∧ s.regs.dataLen.toNat > cap)) →
      ghashWith P s = .next (completed 0x00000004#32 0x00000706#32 0 0 0 [] [] s)) ∧
    (s.regs.aadLen.toNat ≤ 2 ^ 61 - 1 → s.regs.dataLen.toNat ≤ 2 ^ 61 - 1 →
      (∀ cap, P.capAad = some cap → s.regs.aadLen.toNat ≤ cap) →
      (∀ cap, P.capData = some cap → s.regs.dataLen.toNat ≤ cap) →
      ∀ t, ghashWith P s = .next t → Status.err t.status = false)

/-! ## GCM_ENC and GCM_DEC -/

/-- R171, R172: the admission checks of both session commands, in order, for every choice of the open parameters; each
ends the command with its code, without a cipher request and before any buffer byte is read; and when none fails there
is no error but AUTH_FAIL. -/
def Obligations.GcmAdmissionErrors : Prop :=
  (∀ s : State, exec .gcmEnc s = gcmEncWith Config.params s ∧ exec .gcmDec s = gcmDecWith Config.params s) ∧
  ∀ (P : Params) (s : State) (run : Params → State → Host.Outcome State Fault Refusal) (w : Word32),
    (run = gcmEncWith ∧ w = 0x00000010#32) ∨ (run = gcmDecWith ∧ w = 0x00000011#32) →
    (s.regs.keyLen.toNat ∉ P.legalKeyBytes → run P s = .next (completed w 0x00000106#32 0 0 0 [] [] s)) ∧
    (s.regs.keyLen.toNat ∈ P.legalKeyBytes →
      (s.regs.nonceLen = 0 → run P s = .next (completed w 0x00000206#32 0 0 0 [] [] s)) ∧
      (s.regs.nonceLen.toNat > 2 ^ 61 - 1 → run P s = .next (completed w 0x00000306#32 0 0 0 [] [] s)) ∧
      (s.regs.nonceLen ≠ 0 → s.regs.nonceLen.toNat ≤ 2 ^ 61 - 1 →
        (s.regs.aadLen.toNat > 2 ^ 61 - 1 → run P s = .next (completed w 0x00000406#32 0 0 0 [] [] s)) ∧
        (s.regs.aadLen.toNat ≤ 2 ^ 61 - 1 →
          (s.regs.dataLen.toNat > 2 ^ 61 - 1 → run P s = .next (completed w 0x00000506#32 0 0 0 [] [] s)) ∧
          (s.regs.dataLen.toNat ≤ 2 ^ 61 - 1 → s.regs.dataLen.toNat > 2 ^ 36 - 32 →
            run P s = .next (completed w 0x00000606#32 0 0 0 [] [] s)) ∧
          (s.regs.dataLen.toNat ≤ 2 ^ 36 - 32 →
            ((∃ cap, P.capNonce = some cap ∧ s.regs.nonceLen.toNat > cap) ∨
              (∃ cap, P.capAad = some cap ∧ s.regs.aadLen.toNat > cap) ∨
              (∃ cap, P.capData = some cap ∧ s.regs.dataLen.toNat > cap)) →
            run P s = .next (completed w 0x00000706#32 0 0 0 [] [] s)) ∧
          (s.regs.dataLen.toNat ≤ 2 ^ 36 - 32 →
            (∀ cap, P.capNonce = some cap → s.regs.nonceLen.toNat ≤ cap) →
            (∀ cap, P.capAad = some cap → s.regs.aadLen.toNat ≤ cap) →
            (∀ cap, P.capData = some cap → s.regs.dataLen.toNat ≤ cap) →
            ∀ t, run P s = .next t → Status.err t.status = true → Status.errCode t.status = 8#4))))

/-- R176, R67: `gctr` xors byte j of block k with byte j of E(Y_{k+1}), keeps the length, and is its own inverse. -/
def Obligations.GctrIsSelfInverse : Prop :=
  ∀ (E : Block → Block) (y0 : Block) (d : List Byte),
    (gctr E y0 d).length = d.length ∧
    (∀ i, i < d.length →
      (gctr E y0 d).getD i 0 = d.getD i 0 ^^^ (be128 (E (counterBlock y0 (i / 16 + 1)))).getD (i % 16) 0) ∧
    gctr E y0 (gctr E y0 d) = d

/-- R180, R181: the command GCM_ENC, for every state that passes the checks and whose bytes have been written; it raises
no error but those of R171 and R172; and the worked example, with the toy cipher under the key 00 01 .. 1f. The record of
requests, and its order in `encryptRequests`, are the model's choice (log entry 10). -/
def Obligations.GcmEncPublishesCiphertextAndTag : Prop :=
  decode 0x00000010#32 = .command .gcmEnc ∧
  (∀ (E : Block → Block) (nonce a p : List Byte),
    gcmEncrypt E nonce a p =
      (gctr E (deriveY0 (E 0) nonce) p,
        ghash (E 0) a (gctr E (deriveY0 (E 0) nonce) p) ^^^ E (deriveY0 (E 0) nonce))) ∧
  (∀ s t : State, exec .gcmEnc s = .next t → Status.err t.status = true →
    1 ≤ (Status.errCode t.status).toNat ∧ (Status.errCode t.status).toNat ≤ 7) ∧
  gcmEncrypt (fun b => b ^^^ 0x000102030405060708090a0b0c0d0e0f#128)
    [0xa0#8, 0xa1#8, 0xa2#8, 0xa3#8, 0xa4#8, 0xa5#8, 0xa6#8, 0xa7#8, 0xa8#8, 0xa9#8, 0xaa#8, 0xab#8]
    [0x61#8, 0x62#8, 0x63#8] [0x68#8, 0x65#8, 0x6c#8, 0x6c#8, 0x6f#8] =
    ([0xc8#8, 0xc5#8, 0xcc#8, 0xcc#8, 0xcf#8], 0x3c59cbe57c7fa54cc7c0e09a1707401e#128) ∧
  ∀ (s : State) (op : GcmOperands), GcmSession s op →
    let E : Block → Block := fun b => Config.cipher op.key b
    let h := E 0
    let y0 := deriveY0 h op.nonce
    let c := gctr E y0 op.data
    exec .gcmEnc s =
      .next (completed 0x00000010#32 0x00000002#32 0 (ghash h op.aad c ^^^ E y0) s.regs.dataLen
        (Memory.writeBytes [] 0 c)
        ((encryptRequests y0 ((s.regs.dataLen.toNat + 15) / 16)).map fun b => { key := op.key, block := b }) s)

/-- R187, R190: decryption as a function, and the command GCM_DEC with equal tags: the plaintext is released, TAG_OUT
stays 0. The record of requests, and its order in `decryptRequests`, are the model's choice (log entry 10). -/
def Obligations.GcmDecReleasesOnEqualTags : Prop :=
  decode 0x00000011#32 = .command .gcmDec ∧
  (∀ (E : Block → Block) (nonce a c : List Byte) (t : Block),
    (ghash (E 0) a c ^^^ E (deriveY0 (E 0) nonce) = t →
      gcmDecrypt E nonce a c t = some (gctr E (deriveY0 (E 0) nonce) c)) ∧
    (ghash (E 0) a c ^^^ E (deriveY0 (E 0) nonce) ≠ t → gcmDecrypt E nonce a c t = none)) ∧
  ∀ (s : State) (op : GcmOperands), GcmSession s op →
    let E : Block → Block := fun b => Config.cipher op.key b
    let h := E 0
    let y0 := deriveY0 h op.nonce
    s.regs.tagIn = ghash h op.aad op.data ^^^ E y0 →
    exec .gcmDec s =
      .next (completed 0x00000011#32 0x0000000A#32 0 0 s.regs.dataLen (Memory.writeBytes [] 0 (gctr E y0 op.data))
        ((decryptRequests y0 ((s.regs.dataLen.toNat + 15) / 16)).map fun b => { key := op.key, block := b }) s)

/-- R191: the command GCM_DEC with unequal tags: AUTH_FAIL, and nothing is released; and GCM_DEC raises no error but this
and those of R171 and R172. The record of requests, and its order in `decryptRequests`, are the model's choice (log
entry 10). -/
def Obligations.GcmDecDiscardsOnUnequalTags : Prop :=
  (∀ s t : State, exec .gcmDec s = .next t → Status.err t.status = true →
    1 ≤ (Status.errCode t.status).toNat ∧ (Status.errCode t.status).toNat ≤ 8) ∧
  ∀ (s : State) (op : GcmOperands), GcmSession s op →
    let E : Block → Block := fun b => Config.cipher op.key b
    let h := E 0
    let y0 := deriveY0 h op.nonce
    s.regs.tagIn ≠ ghash h op.aad op.data ^^^ E y0 →
    exec .gcmDec s =
      .next (completed 0x00000011#32 0x00000806#32 0 0 0 []
        ((decryptRequests y0 ((s.regs.dataLen.toNat + 15) / 16)).map fun b => { key := op.key, block := b }) s)

/-- R179: a session that completes without an admission error asks the cipher n + 2 times, always with the key, for 0,
for Y0 and once for each Y_i; every other completed command, and an illegal word, asks nothing. The record of requests
is the model's own (log entry 10). -/
def Obligations.CipherRequestsOfACommand : Prop :=
  (∀ (s : State) (op : GcmOperands) (i : Instr), GcmSession s op → i = .gcmEnc ∨ i = .gcmDec →
    ∃ t, exec i s = .next t ∧
      t.requests.length = (s.regs.dataLen.toNat + 15) / 16 + 2 ∧
      (∀ r ∈ t.requests, r.key = op.key) ∧
      (t.requests.map CipherRequest.block).Perm
        (0 :: (List.range ((s.regs.dataLen.toNat + 15) / 16 + 1)).map
          (counterBlock (deriveY0 (Config.cipher op.key 0) op.nonce)))) ∧
  (∀ (i : Instr) (s t : State), exec i s = .next t →
    (i = .gfAdd ∨ i = .gfMul ∨ i = .inc32 ∨ i = .ghash) ∨
      (Status.err t.status = true ∧ Status.errCode t.status ≠ 8#4) → t.requests = []) ∧
  (∀ (w : Word32) (why : DecodeError) (s t : State), decode w = .illegal why → runCommand w s = .next t →
    t.requests = [])

/-- R192: what GCM_ENC made, given back as DIN and TAG_IN, GCM_DEC accepts and turns into the original plaintext. -/
def Obligations.DecryptionUndoesEncryption : Prop :=
  ∀ (s t : State) (op : GcmOperands) (din : Memory), GcmSession s op → exec .gcmEnc s = .next t →
    (∀ j, j < t.outLen.toNat → Memory.read din j = Memory.read t.dout j) →
    ∃ u, exec .gcmDec
        { t with regs := { t.regs with tagIn := t.tagOut }, bufs := { t.bufs with din := din } } = .next u ∧
      u.status = 0x0000000A#32 ∧ u.outLen = s.regs.dataLen ∧
      (∀ j, j < op.data.length → hostReadByte .dout j u = .ok (op.data.getD j 0)) ∧
      u.tagOut = 0 ∧ u.res = 0

/-- R193: of the tampers, the one that is certain to fail whatever the cipher: any received tag but the one GCM_ENC made
is an authentication failure. And why the others are not: under the subkey 0 every data and associated data hash alike. -/
def Obligations.TamperedTagAlwaysFails : Prop :=
  (∀ a c a' c' : List Byte, ghash 0 a c = ghash 0 a' c') ∧
  ∀ (s t : State) (op : GcmOperands) (din : Memory) (tag : Block), GcmSession s op → exec .gcmEnc s = .next t →
    (∀ j, j < t.outLen.toNat → Memory.read din j = Memory.read t.dout j) → tag ≠ t.tagOut →
    ∃ u, exec .gcmDec
        { t with regs := { t.regs with tagIn := tag }, bufs := { t.bufs with din := din } } = .next u ∧
      u.status = 0x00000806#32 ∧ outputsBlank u

/-- R191: whatever the ciphers, keys, data and expected tags, two decryptions that both fail authentication leave the
same outputs and hidden state, and no byte of DOUT. -/
def Obligations.FailedDecryptionsLookAlike : Prop :=
  ∀ (P Q : Params) (s s' t t' : State), gcmDecWith P s = .next t → gcmDecWith Q s' = .next t' →
    Status.errCode t.status = 8#4 → Status.errCode t'.status = 8#4 →
    SameOutputs t t' ∧ outputsBlank t ∧ t.hidden = Hidden.zero ∧
    ∀ i, hostReadByte .dout i t = .ok 0

/-! ## What every command keeps, clears and depends on -/

/-- R28, R93, R26: no command writes a host-written register, an input buffer or the host's lists; RES is written by the
four primitive commands only, TAG_OUT by GCM_ENC only, DOUT and OUT_LEN by the session commands only. -/
def Obligations.CommandFrame : Prop :=
  ∀ (i : Instr) (s t : State), exec i s = .next t →
    t.cmd = encode i ∧ t.regs = s.regs ∧
    (∀ a, Memory.read t.bufs.key a = Memory.read s.bufs.key a) ∧
    (∀ a, Memory.read t.bufs.nonce a = Memory.read s.bufs.nonce a) ∧
    (∀ a, Memory.read t.bufs.aad a = Memory.read s.bufs.aad a) ∧
    (∀ a, Memory.read t.bufs.din a = Memory.read s.bufs.din a) ∧
    t.bufs = s.bufs ∧ t.pending = s.pending ∧ t.replies = s.replies ∧ t.split = s.split ∧
    (i = .gcmEnc ∨ i = .gcmDec → t.res = 0) ∧
    (i ≠ .gcmEnc → t.tagOut = 0) ∧
    (i ≠ .gcmEnc → i ≠ .gcmDec → t.outLen = 0 ∧ t.dout = [])

/-- R37: the completion update: every command that completes is DONE and not BUSY, with PHASE idle, all hidden state
zero, ERR exactly when the code is not 0, AUTH_OK only for GCM_DEC, and blank outputs on an error. -/
def Obligations.CompletionPublishesAndClears : Prop :=
  ∀ (i : Instr) (s t : State), exec i s = .next t →
    coreBusy t = false ∧ doneLine t = true ∧ t.hidden = Hidden.zero ∧ t.hidden.phase = .idle ∧
    Status.reserved t.status = 0 ∧
    (Status.err t.status = true ↔ Status.errCode t.status ≠ 0) ∧
    (Status.authOk t.status = true → i = .gcmDec ∧ Status.err t.status = false) ∧
    (i = .gcmDec → Status.err t.status = false → Status.authOk t.status = true) ∧
    (Status.err t.status = true → outputsBlank t)

/-- R38, R222: the result of a command is a function of the host-written registers and the input buffers at START: two
states that agree on them end every command alike, whatever was left in STATUS, results, hidden state or requests. -/
def Obligations.SessionsAreIsolated : Prop :=
  (∀ (i : Instr) (s t : State), s.regs = t.regs → s.bufs = t.bufs → SameResult (exec i s) (exec i t)) ∧
  (∀ (w : Word32) (s : State), (start w s).hidden = { Hidden.zero with phase := .check }) ∧
  (∀ (i : Instr) (s t : State), exec i s = .next t → t.hidden = Hidden.zero)

/-- R93, R28, R63: only the operands listed for a command can influence it; bytes at or above the length never do. -/
def Obligations.OnlyListedOperandsMatter : Prop :=
  ∀ s t : State,
    (s.regs.opa = t.regs.opa → s.regs.opb = t.regs.opb → SameResult (exec .gfAdd s) (exec .gfAdd t)) ∧
    (s.regs.opa = t.regs.opa → s.regs.opb = t.regs.opb → SameResult (exec .gfMul s) (exec .gfMul t)) ∧
    (s.regs.opa = t.regs.opa → SameResult (exec .inc32 s) (exec .inc32 t)) ∧
    (s.regs.aadLen = t.regs.aadLen → s.regs.dataLen = t.regs.dataLen →
      SameBytes s.regs.aadLen.toNat s.bufs.aad t.bufs.aad → SameBytes s.regs.dataLen.toNat s.bufs.din t.bufs.din →
      (s.regs.opa = t.regs.opa → SameResult (exec .ghash s) (exec .ghash t)) ∧
      (s.regs.keyLen = t.regs.keyLen → s.regs.nonceLen = t.regs.nonceLen →
        SameBytes s.regs.keyLen.toNat s.bufs.key t.bufs.key →
        SameBytes s.regs.nonceLen.toNat s.bufs.nonce t.bufs.nonce →
        SameResult (exec .gcmEnc s) (exec .gcmEnc t) ∧
        (s.regs.tagIn = t.regs.tagIn → SameResult (exec .gcmDec s) (exec .gcmDec t))))

/-- R28, U7 (93_implementation_defined.md): a command that passes its checks and would read a byte that nothing has
written since reset gets no result; the model refuses it, whichever input buffer the byte is in, and only such a command, naming such a byte (log
entry 5). -/
def Obligations.UnwrittenOperandIsRefused : Prop :=
  (∀ (i : Instr) (s : State) (r : Refusal), exec i s = .refused r →
    ∃ b j, r = .unwrittenByte b j ∧
      ((b = .key ∧ j < s.regs.keyLen.toNat ∧ Memory.read s.bufs.key j = none) ∨
        (b = .nonce ∧ j < s.regs.nonceLen.toNat ∧ Memory.read s.bufs.nonce j = none) ∨
        (b = .aad ∧ j < s.regs.aadLen.toNat ∧ Memory.read s.bufs.aad j = none) ∨
        (b = .din ∧ j < s.regs.dataLen.toNat ∧ Memory.read s.bufs.din j = none))) ∧
  (∀ s : State, s.regs.aadLen.toNat ≤ 2 ^ 61 - 1 → s.regs.dataLen.toNat ≤ 2 ^ 61 - 1 →
    HasUnwritten s.bufs.aad s.regs.aadLen ∨ HasUnwritten s.bufs.din s.regs.dataLen →
    ∃ r, exec .ghash s = .refused r) ∧
  (∀ (i : Instr) (s : State), i = .gcmEnc ∨ i = .gcmDec →
    s.regs.keyLen.toNat = 32 → 1 ≤ s.regs.nonceLen.toNat → s.regs.nonceLen.toNat ≤ 2 ^ 61 - 1 →
    s.regs.aadLen.toNat ≤ 2 ^ 61 - 1 → s.regs.dataLen.toNat ≤ 2 ^ 36 - 32 →
    HasUnwritten s.bufs.key s.regs.keyLen ∨ HasUnwritten s.bufs.nonce s.regs.nonceLen ∨
      HasUnwritten s.bufs.aad s.regs.aadLen ∨ HasUnwritten s.bufs.din s.regs.dataLen →
    ∃ r, exec i s = .refused r) ∧
  (∀ (i : Instr) (s : State) (f : Fault), exec i s ≠ .fault f)

/-! ## The host port and reset -/

/-- R46, R244: while BUSY = 1 every host write is dropped, STATUS reads BUSY alone, the results and DOUT read zero, and
the host-written registers read their values. -/
def Obligations.BusyCoreIgnoresTheHost : Prop :=
  ∀ (s : State) (rest : List HostAction), coreBusy s = true →
    (∀ r v, step { s with pending := .write32 r v :: rest } = .next { s with pending := rest }) ∧
    (∀ r v, step { s with pending := .write64 r v :: rest } = .next { s with pending := rest }) ∧
    (∀ r v, step { s with pending := .write128 r v :: rest } = .next { s with pending := rest }) ∧
    (∀ b i v, step { s with pending := .writeByte b i v :: rest } = .next { s with pending := rest }) ∧
    hostRead32 .status s = 0x00000001#32 ∧ hostRead64 .outLen s = 0 ∧ hostRead128 .res s = 0 ∧
    hostRead128 .tagOut s = 0 ∧ (∀ i, hostReadByte .dout i s = .ok 0) ∧
    hostRead64 .keyLen s = s.regs.keyLen ∧ hostRead64 .nonceLen s = s.regs.nonceLen ∧
    hostRead64 .aadLen s = s.regs.aadLen ∧ hostRead64 .dataLen s = s.regs.dataLen ∧
    hostRead128 .opa s = s.regs.opa ∧ hostRead128 .opb s = s.regs.opb ∧ hostRead128 .tagIn s = s.regs.tagIn ∧
    hostRead32 .cmd s = s.cmd

/-- R23, R24, 10_state.md sections 2 and 3: a register write by the host to an idle core changes that register alone, at
every value; writes to STATUS, OUT_LEN, RES and TAG_OUT change nothing. -/
def Obligations.IdleRegisterWrites : Prop :=
  ∀ (s : State) (rest : List HostAction) (v : Word64) (w : Word32) (b : Block), coreBusy s = false →
    let s' := { s with pending := rest }
    step { s with pending := .write64 .keyLen v :: rest } = .next { s' with regs := { s.regs with keyLen := v } } ∧
    step { s with pending := .write64 .nonceLen v :: rest } = .next { s' with regs := { s.regs with nonceLen := v } } ∧
    step { s with pending := .write64 .aadLen v :: rest } = .next { s' with regs := { s.regs with aadLen := v } } ∧
    step { s with pending := .write64 .dataLen v :: rest } = .next { s' with regs := { s.regs with dataLen := v } } ∧
    step { s with pending := .write128 .opa b :: rest } = .next { s' with regs := { s.regs with opa := b } } ∧
    step { s with pending := .write128 .opb b :: rest } = .next { s' with regs := { s.regs with opb := b } } ∧
    step { s with pending := .write128 .tagIn b :: rest } = .next { s' with regs := { s.regs with tagIn := b } } ∧
    step { s with pending := .write32 .status w :: rest } = .next s' ∧
    step { s with pending := .write64 .outLen v :: rest } = .next s' ∧
    step { s with pending := .write128 .res b :: rest } = .next s' ∧
    step { s with pending := .write128 .tagOut b :: rest } = .next s'

/-- R27, R28: a byte the host writes to an idle core's input buffer is what that buffer holds at that index afterwards;
every other byte of every buffer is as before, and so is everything else. A write to DOUT changes nothing (log entry 7:
the model's choice). With a capacity set, whichever buffer has one, an index below it is written, and an index at or above
it is a fault (log entry 8: the model's choice). -/
def Obligations.BufferWriteReachesOneByte : Prop :=
  (∀ (s : State) (rest : List HostAction) (b : Buf) (i : Nat) (v : Byte), coreBusy s = false →
    ∃ bufs, step { s with pending := .writeByte b i v :: rest } = .next { s with pending := rest, bufs := bufs } ∧
      ByteWritten b i v s.bufs bufs) ∧
  (∀ (P : Params) (s : State) (b : Buf) (i cap : Nat) (v : Byte), coreBusy s = false → b ≠ .dout →
    capacityOf P b = some cap →
    (i < cap → ∃ bufs, hostWriteByte P b i v s = .next { s with bufs := bufs } ∧ ByteWritten b i v s.bufs bufs) ∧
    (cap ≤ i → hostWriteByte P b i v s = .fault (.indexOutOfRange b i))) ∧
  (∀ P : Params, capacityOf P .nonce = P.capNonce ∧ capacityOf P .aad = P.capAad ∧ capacityOf P .din = P.capData) ∧
  (∀ (s : State) (rest : List HostAction) (b : Buf) (i : Nat) (v : Byte),
    step { s with pending := .writeByte b i v :: rest } = hostWriteByte Config.params b i v { s with pending := rest })

/-- R30, R29, R22: host reads have no side effect but the host's own record of the reply; the input buffers read as 0x00,
DOUT as 0x00 at and above OUT_LEN and while busy, and below OUT_LEN on an idle core as the byte it holds. -/
def Obligations.HostReads : Prop :=
  ∀ (s : State) (rest : List HostAction),
    (∀ r, step { s with pending := .read32 r :: rest } =
      .next { s with pending := rest, replies := s.replies ++ [.reg32 r (hostRead32 r s)] }) ∧
    (∀ r, step { s with pending := .read64 r :: rest } =
      .next { s with pending := rest, replies := s.replies ++ [.reg64 r (hostRead64 r s)] }) ∧
    (∀ r, step { s with pending := .read128 r :: rest } =
      .next { s with pending := rest, replies := s.replies ++ [.reg128 r (hostRead128 r s)] }) ∧
    (∀ b i, b ≠ .dout → step { s with pending := .readByte b i :: rest } =
      .next { s with pending := rest, replies := s.replies ++ [.byte b i 0x00#8] }) ∧
    (∀ i, s.outLen.toNat ≤ i → step { s with pending := .readByte .dout i :: rest } =
      .next { s with pending := rest, replies := s.replies ++ [.byte .dout i 0x00#8] }) ∧
    (coreBusy s = false → hostRead32 .status s = s.status ∧ hostRead64 .outLen s = s.outLen ∧
      hostRead128 .res s = s.res ∧ hostRead128 .tagOut s = s.tagOut) ∧
    (∀ i v, coreBusy s = false → i < s.outLen.toNat → Memory.read s.dout i = some v →
      hostReadByte .dout i s = .ok v ∧
      step { s with pending := .readByte .dout i :: rest } =
        .next { s with pending := rest, replies := s.replies ++ [.byte .dout i v] }) ∧
    (∀ i, coreBusy s = true → step { s with pending := .readByte .dout i :: rest } =
      .next { s with pending := rest, replies := s.replies ++ [.byte .dout i 0x00#8] })

/-- R47, R240, R241: the reset input takes the core, whatever it was doing, to the reset values. That no
input-buffer byte has a value afterwards is U8's treatment and the model's choice (log entry 6): R47 says only that they
are unspecified. -/
def Obligations.ResetValues : Prop :=
  ∀ (s : State) (rest : List HostAction), ∃ t,
    step { s with pending := .reset :: rest } = .next t ∧
    t.cmd = 0 ∧ t.regs.keyLen = 0 ∧ t.regs.nonceLen = 0 ∧ t.regs.aadLen = 0 ∧ t.regs.dataLen = 0 ∧ t.regs.opa = 0 ∧
    t.regs.opb = 0 ∧ t.regs.tagIn = 0 ∧ t.status = 0 ∧ t.outLen = 0 ∧ t.res = 0 ∧ t.tagOut = 0 ∧
    t.hidden.phase = .idle ∧ t.hidden.blk = 0 ∧ t.hidden.h = 0 ∧ t.hidden.x = 0 ∧ t.hidden.mul.v = 0 ∧
    t.hidden.mul.z = 0 ∧ t.hidden.mul.mi = 0 ∧ t.hidden.y0 = 0 ∧ t.hidden.y = 0 ∧ t.hidden.eky0 = 0 ∧
    t.hidden.lenA = 0 ∧ t.hidden.lenC = 0 ∧ t.hidden.tagX = 0 ∧ t.hidden.obuf = [] ∧
    (∀ i, hostReadByte .dout i t = .ok 0) ∧ doneLine t = false ∧ coreBusy t = false ∧
    (∀ i, Memory.read t.bufs.key i = none ∧ Memory.read t.bufs.nonce i = none ∧ Memory.read t.bufs.aad i = none ∧
      Memory.read t.bufs.din i = none) ∧
    (s = State.reset → rest = [] → t = State.reset)

/-- R220: the done line is STATUS.DONE: up at every completion, down at START and at reset. -/
def Obligations.DoneLineFollowsStatus : Prop :=
  (∀ s : State, doneLine s = s.status.getLsbD 1) ∧
  (∀ (i : Instr) (s t : State), exec i s = .next t → doneLine t = true) ∧
  (∀ (w : Word32) (s : State), doneLine (start w s) = false) ∧
  (∀ s : State, doneLine (resetCore s) = false)

/-- R97: WAIT goes on reading STATUS until DONE is 1: then it is over, before that the core takes its steps and the WAIT
stays the host's next action. A busy core left to itself, by a WAIT, by a pause or by a host with no action to come, takes
one tick. That a busy core takes one tick a step, and the action `pause`, are the model's choice (log entries 2
and 9), and so is it that an idle core stays as it is, with a WAIT that DONE does not end (log entry 12). -/
def Obligations.WaitEndsWhenDone : Prop :=
  (∀ (s : State) (rest : List HostAction), s.pending = .wait :: rest →
    (coreBusy s = false → Status.done s.status = true → step s = .next { s with pending := rest }) ∧
    (coreBusy s = false → Status.done s.status = false → step s = .next s) ∧
    (coreBusy s = true → step s = tick Config.params s)) ∧
  (∀ (s : State) (rest : List HostAction), s.pending = .pause :: rest →
    (coreBusy s = false → step s = .next { s with pending := rest }) ∧
    (coreBusy s = true → step s = tick Config.params { s with pending := rest })) ∧
  (∀ s : State, s.pending = [] →
    (coreBusy s = false → step s = .next s) ∧
    (coreBusy s = true → step s = tick Config.params s))

/-! ## The phases -/

/-- R6, R32, R75, R77: the command split into phases and the command as one step are the same machine. From START, every
command reaches in finitely many ticks, busy before the last, exactly the state `exec` gives; and it stops as `exec`
stops. -/
def Obligations.TicksRefineExec : Prop :=
  ∀ (i : Instr) (s : State),
    (∀ t, exec i s = .next t → ∃ n, ticks Config.params n (start (encode i) s) = .next t ∧
      ∀ m, m < n → ∃ u, ticks Config.params m (start (encode i) s) = .next u ∧ coreBusy u = true) ∧
    (∀ r, exec i s = .refused r → ∃ n, ticks Config.params n (start (encode i) s) = .refused r)

/-- R37, R36, R78: in every state of the invariant with BUSY = 1 one tick leads to a state that is still busy and shows
nothing, or to a completed one with all hidden state cleared; there is no mixture. -/
def Obligations.NoPartialOutput : Prop :=
  ∀ s t : State, Invariant s → coreBusy s = true → tick Config.params s = .next t →
    (coreBusy t = true ∧ t.status = 0x00000001#32 ∧ outputsBlank t) ∨
    (coreBusy t = false ∧ doneLine t = true ∧ t.hidden = Hidden.zero)

/-- The invariant holds at reset (R47). -/
def Obligations.ResetMeetsInvariant : Prop := Invariant State.reset

/-- The invariant (R25, R26, R28, R29, R32, R36, R38) is kept by every step. -/
def Obligations.StepKeepsInvariant : Prop := ∀ s t : State, Invariant s → step s = .next t → Invariant t

/-- R214: no internal invariant is ever violated: from a state of the invariant no step is stuck, nor does any other
fault stop it with the default, unbounded capacities. -/
def Obligations.StepNeverFaults : Prop := ∀ (s : State) (f : Fault), Invariant s → step s ≠ .fault f

/-- R25: in every state of the invariant exactly one of idle after reset, busy, and done holds, the reserved bits are 0,
and ERR says whether ERR_CODE is 0. -/
def Obligations.StatusIsIdleBusyOrDone : Prop :=
  ∀ s : State, Invariant s →
    ((s.status = 0 ∧ Status.busy s.status = false ∧ Status.done s.status = false) ∨
      (s.status = 0x00000001#32 ∧ Status.busy s.status = true ∧ Status.done s.status = false) ∨
      (Status.busy s.status = false ∧ Status.done s.status = true)) ∧
    s.status.extractLsb' 4 4 = 0 ∧ s.status.extractLsb' 12 20 = 0 ∧
    (Status.err s.status = true ↔ Status.errCode s.status ≠ 0) ∧
    (Status.errCode s.status).toNat ≤ 9
end

