-- ==== Sys2Proof/Laws/Bytes.lean ====
section
/-!
SUPPORT. The big-endian value of a byte sequence and its bytes (R10).
-/

namespace Sys2Proof.Machine

/-- `int_be` of a concatenation. -/
theorem intBe_append (s t : List Byte) : intBe (s ++ t) = intBe s * 256 ^ t.length + intBe t := by
  have gen : ∀ (t : List Byte) (a : Nat),
      t.foldl (fun acc b => acc * 256 + b.toNat) a = a * 256 ^ t.length + intBe t := by
    intro t
    induction t with
    | nil => intro a; simp [intBe]
    | cons b t ih =>
      intro a
      simp only [intBe, List.foldl_cons, List.length_cons]
      rw [ih, ih (0 * 256 + b.toNat)]
      ring
  rw [intBe, List.foldl_append, gen]
  rfl

/-- `int_be` of `n` bytes is below 256^n. -/
theorem intBe_lt (s : List Byte) : intBe s < 256 ^ s.length := by
  induction s using List.reverseRecOn with
  | nil => simp [intBe]
  | append_singleton s b ih =>
    rw [intBe_append]
    simp [intBe, pow_succ] at *
    have := b.isLt
    omega

/-- Byte `j` of a sequence, read back from its value. -/
theorem intBe_byte (s : List Byte) (j : Nat) (hj : j < s.length) :
    (intBe s >>> (8 * (s.length - 1 - j))) % 256 = (s.getD j 0).toNat := by
  induction s using List.reverseRecOn with
  | nil => simp at hj
  | append_singleton s b ih =>
    rw [intBe_append]
    have hb := b.isLt
    rw [show intBe [b] = b.toNat by simp [intBe]]
    simp [pow_succ] at *
    by_cases h : j = s.length
    · subst h
      simp
      omega
    · have h' : j < s.length := by omega
      rw [show s.length - j = (s.length - 1 - j) + 1 by omega, Nat.mul_add, Nat.add_comm (8 * _), Nat.shiftRight_add]
      rw [show (intBe s * 256 + b.toNat) >>> (8 * 1) = intBe s by rw [Nat.shiftRight_eq_div_pow]; omega]
      rw [ih h', List.getElem?_append_left h']

/-- The bytes of the value are the sequence (R10). -/
theorem beBytes_intBe (s : List Byte) : beBytes s.length (intBe s) = s := by
  apply List.ext_getElem
  · simp [beBytes]
  · intro j h1 h2
    simp only [beBytes, List.getElem_map, List.getElem_range]
    apply BitVec.eq_of_toNat_eq
    have := intBe_byte s j h2
    simp [List.getElem?_eq_getElem h2] at this
    simpa using this

/-- The value of the bytes is the number (R10). -/
theorem intBe_beBytes : ∀ n v : Nat, v < 256 ^ n → intBe (beBytes n v) = v := by
  intro n
  induction n with
  | zero => intro v h; simp at h; subst h; simp [beBytes, intBe]
  | succ n ih =>
    intro v h
    have e : beBytes (n + 1) v = beBytes n (v / 256) ++ [BitVec.ofNat 8 v] := by
      simp only [beBytes, List.range_succ, List.map_append, List.map_cons, List.map_nil]
      congr 1
      · refine List.map_congr_left fun j hj => ?_
        simp at hj
        congr 1
        rw [show n + 1 - 1 - j = (n - 1 - j) + 1 by omega, Nat.mul_add, Nat.add_comm (8 * _), Nat.shiftRight_add]
        rw [Nat.shiftRight_eq_div_pow v]
      · simp
    rw [e, intBe_append, ih _ (by rw [pow_succ] at h; omega)]
    simp [intBe]
    omega

end Sys2Proof.Machine
end

