-- ==== Sys2Proof/Laws/Memory.lean ====
section
/-!
SUPPORT. The laws of the buffers: a read after a write, what a write leaves alone, and that every operation keeps the
canonical form.
-/

namespace Sys2Proof.Machine

/-- Canonical form, as a relation between neighbours. -/
theorem Memory.wf_iff (m : Memory) : Memory.wf m = true ↔ (m.map Prod.fst).Pairwise (· < ·) := by
  rw [← List.isChain_iff_pairwise]
  induction m with
  | nil => simp [Memory.wf]
  | cons c m ih =>
    cases m with
    | nil => simp [Memory.wf]
    | cons d m => simp_all [Memory.wf]

theorem Memory.wf_nil : Memory.wf [] = true := rfl

@[simp] theorem Memory.read_nil (i : Nat) : Memory.read [] i = none := rfl

theorem Memory.read_eq_none_of_not_mem (m : Memory) (i : Nat) (h : i ∉ m.map Prod.fst) : Memory.read m i = none := by
  induction m with
  | nil => rfl
  | cons c m ih =>
    obtain ⟨a, v⟩ := c
    simp only [List.map_cons, List.mem_cons, not_or] at h
    simp [Memory.read, Ne.symm h.1, ih h.2]

theorem Memory.exists_read_of_mem (m : Memory) (i : Nat) (h : i ∈ m.map Prod.fst) : ∃ v, Memory.read m i = some v := by
  induction m with
  | nil => simp at h
  | cons c m ih =>
    obtain ⟨a, v⟩ := c
    by_cases ha : a = i
    · exact ⟨v, by simp [Memory.read, ha]⟩
    · obtain ⟨w, hw⟩ := ih (by simpa [Ne.symm ha] using h)
      exact ⟨w, by simp [Memory.read, ha, hw]⟩

@[simp] theorem Memory.read_write_same (m : Memory) (i : Nat) (v : Byte) :
    Memory.read (Memory.write m i v) i = some v := by
  induction m with
  | nil => simp [Memory.write, Memory.read]
  | cons c m ih =>
    obtain ⟨a, x⟩ := c
    simp only [Memory.write]
    split
    · simp [Memory.read]
    · split
      · simp [Memory.read]
      · next h => simp [Memory.read, Ne.symm h, ih]

theorem Memory.read_write_other (m : Memory) (i j : Nat) (v : Byte) (h : j ≠ i) :
    Memory.read (Memory.write m i v) j = Memory.read m j := by
  induction m with
  | nil => simp [Memory.write, Memory.read, Ne.symm h]
  | cons c m ih =>
    obtain ⟨a, x⟩ := c
    simp only [Memory.write]
    split
    · simp [Memory.read, Ne.symm h]
    · split
      · next h' => simp [Memory.read, Ne.symm h, ← h']
      · simp [Memory.read, ih]

theorem Memory.mem_keys_write (m : Memory) (i j : Nat) (v : Byte) :
    j ∈ (Memory.write m i v).map Prod.fst ↔ j = i ∨ j ∈ m.map Prod.fst := by
  induction m with
  | nil => simp [Memory.write]
  | cons c m ih =>
    obtain ⟨a, x⟩ := c
    simp only [Memory.write]
    split
    · simp
    · split
      · next h => simp [h]
      · simp only [List.map_cons, List.mem_cons, ih]
        tauto

theorem Memory.write_wf (m : Memory) (i : Nat) (v : Byte) (h : Memory.wf m = true) :
    Memory.wf (Memory.write m i v) = true := by
  rw [Memory.wf_iff] at *
  induction m with
  | nil => simp [Memory.write]
  | cons c m ih =>
    obtain ⟨a, x⟩ := c
    simp only [List.map_cons, List.pairwise_cons] at h
    simp only [Memory.write]
    split
    · next hia =>
      simp only [List.map_cons, List.pairwise_cons, List.mem_cons]
      refine ⟨?_, h⟩
      rintro b (rfl | hb)
      · exact hia
      · exact Nat.lt_trans hia (h.1 b hb)
    · split
      · next hia => subst hia; simpa using h
      · next h1 h2 =>
        simp only [List.map_cons, List.pairwise_cons]
        refine ⟨fun b hb => ?_, ih h.2⟩
        rcases (Memory.mem_keys_write m i b v).mp hb with rfl | hb
        · omega
        · exact h.1 b hb

theorem Memory.writeBytes_wf (vs : List Byte) : ∀ (m : Memory) (off : Nat), Memory.wf m = true →
    Memory.wf (Memory.writeBytes m off vs) = true := by
  induction vs with
  | nil => exact fun m off h => h
  | cons v vs ih => exact fun m off h => ih _ _ (Memory.write_wf m off v h)

theorem Memory.below_wf (m : Memory) (n : Nat) (h : Memory.wf m = true) : Memory.wf (Memory.below m n) = true := by
  rw [Memory.wf_iff] at *
  exact h.sublist (List.Sublist.map _ List.filter_sublist)

/-- A write behind the last listed index lists its cell at the end. -/
theorem Memory.write_append (m : Memory) (i : Nat) (v : Byte) (h : ∀ a ∈ m.map Prod.fst, a < i) :
    Memory.write m i v = m ++ [(i, v)] := by
  induction m with
  | nil => rfl
  | cons c m ih =>
    obtain ⟨a, x⟩ := c
    have ha : a < i := h a (by simp)
    have := ih fun b hb => h b (by simp only [List.map_cons, List.mem_cons]; exact .inr hb)
    simp [Memory.write, Nat.not_lt_of_gt ha, Nat.ne_of_gt ha, this]

/-- The cells of a byte sequence from index `off`. -/
def Memory.cellsFrom (off : Nat) (vs : List Byte) : Memory := (vs.zipIdx off).map fun p => (p.2, p.1)

@[simp] theorem Memory.cellsFrom_nil (off : Nat) : Memory.cellsFrom off [] = [] := rfl

@[simp] theorem Memory.cellsFrom_cons (off : Nat) (v : Byte) (vs : List Byte) :
    Memory.cellsFrom off (v :: vs) = (off, v) :: Memory.cellsFrom (off + 1) vs := rfl

theorem Memory.cellsFrom_append (vs ws : List Byte) : ∀ off : Nat,
    Memory.cellsFrom off (vs ++ ws) = Memory.cellsFrom off vs ++ Memory.cellsFrom (off + vs.length) ws := by
  induction vs with
  | nil => simp
  | cons v vs ih => intro off; simp [ih (off + 1), Nat.add_assoc, Nat.add_comm 1]

theorem Memory.keys_cellsFrom (vs : List Byte) : ∀ off : Nat,
    (Memory.cellsFrom off vs).map Prod.fst = List.range' off vs.length := by
  induction vs with
  | nil => simp
  | cons v vs ih => intro off; simp [ih (off + 1), List.range'_succ]

theorem Memory.values_cellsFrom (vs : List Byte) : ∀ off : Nat,
    (Memory.cellsFrom off vs).map Prod.snd = vs := by
  induction vs with
  | nil => simp
  | cons v vs ih => intro off; simp [ih (off + 1)]

/-- Writing a byte sequence behind the last listed index lists its cells at the end. -/
theorem Memory.writeBytes_append (vs : List Byte) : ∀ (m : Memory) (off : Nat), (∀ a ∈ m.map Prod.fst, a < off) →
    Memory.writeBytes m off vs = m ++ Memory.cellsFrom off vs := by
  induction vs with
  | nil => simp [Memory.writeBytes]
  | cons v vs ih =>
    intro m off h
    rw [Memory.writeBytes, Memory.write_append m off v h, ih]
    · simp
    · intro a ha
      simp only [List.map_append, List.map_cons, List.map_nil, List.mem_append, List.mem_singleton] at ha
      rcases ha with ha | rfl
      · exact Nat.lt_succ_of_lt (h a ha)
      · exact Nat.lt_succ_self _

theorem Memory.writeBytes_nil (vs : List Byte) : Memory.writeBytes [] 0 vs = Memory.cellsFrom 0 vs := by
  rw [Memory.writeBytes_append vs [] 0 (by simp)]; rfl

theorem Memory.read_cellsFrom (vs : List Byte) : ∀ off j : Nat,
    Memory.read (Memory.cellsFrom off vs) (off + j) = vs[j]? := by
  induction vs with
  | nil => simp
  | cons v vs ih =>
    intro off j
    cases j with
    | zero => simp [Memory.read]
    | succ j =>
      have := ih (off + 1) j
      simp only [Memory.cellsFrom_cons, Memory.read]
      rw [if_neg (by omega), show off + (j + 1) = off + 1 + j by omega, this]
      simp

/-- What `BufRead` answers when it answers bytes: the bytes the buffer holds, all of them written. -/
theorem Memory.readBytes_ok_iff (b : Buf) (m : Memory) : ∀ (n off : Nat) (vs : List Byte),
    Memory.readBytes b m off n = .ok vs ↔
      vs.length = n ∧ ∀ j v, vs[j]? = some v → Memory.read m (off + j) = some v := by
  intro n
  induction n with
  | zero =>
    intro off vs
    simp only [Memory.readBytes, Except.ok.injEq]
    constructor
    · rintro rfl; simp
    · rintro ⟨h, -⟩; exact (List.eq_nil_of_length_eq_zero h).symm
  | succ n ih =>
    intro off vs
    simp only [Memory.readBytes]
    cases hr : Memory.read m off with
    | none =>
      simp only [reduceCtorEq, false_iff, not_and, not_forall]
      intro hl
      cases vs with
      | nil => simp at hl
      | cons v vs => exact ⟨0, v, by simp, by simp [hr]⟩
    | some v =>
      simp only
      cases hb : Memory.readBytes b m (off + 1) n with
      | error r =>
        simp only [reduceCtorEq, false_iff, not_and]
        intro hl hv
        cases vs with
        | nil => simp at hl
        | cons w ws =>
          have : Memory.readBytes b m (off + 1) n = .ok ws := by
            refine (ih (off + 1) ws).mpr ⟨by simpa using hl, fun j u hu => ?_⟩
            have := hv (j + 1) u (by simpa using hu)
            rwa [show off + (j + 1) = off + 1 + j by omega] at this
          simp [hb] at this
      | ok us =>
        obtain ⟨hul, huv⟩ := (ih (off + 1) us).mp hb
        simp only [Except.ok.injEq]
        constructor
        · rintro rfl
          refine ⟨by simp [hul], fun j u hu => ?_⟩
          cases j with
          | zero => simpa [hr] using hu
          | succ j =>
            have := huv j u (by simpa using hu)
            rwa [show off + (j + 1) = off + 1 + j by omega]
        · rintro ⟨hl, hv⟩
          cases vs with
          | nil => simp at hl
          | cons w ws =>
            have hw : v = w := by simpa [hr] using hv 0 w (by simp)
            have : Memory.readBytes b m (off + 1) n = .ok ws := by
              refine (ih (off + 1) ws).mpr ⟨by simpa using hl, fun j u hu => ?_⟩
              have := hv (j + 1) u (by simpa using hu)
              rwa [show off + (j + 1) = off + 1 + j by omega] at this
            rw [hb, Except.ok.injEq] at this
            rw [hw, this]

/-- When `BufRead` answers no bytes, it names a byte of its range that nothing has written. -/
theorem Memory.readBytes_error (b : Buf) (m : Memory) : ∀ (n off : Nat) (r : Refusal),
    Memory.readBytes b m off n = .error r →
      ∃ i, r = .unwrittenByte b i ∧ off ≤ i ∧ i < off + n ∧ Memory.read m i = none := by
  intro n
  induction n with
  | zero => intro off r h; simp [Memory.readBytes] at h
  | succ n ih =>
    intro off r h
    simp only [Memory.readBytes] at h
    cases hr : Memory.read m off with
    | none =>
      rw [hr] at h
      simp only [Except.error.injEq] at h
      exact ⟨off, h.symm, Nat.le_refl _, by omega, hr⟩
    | some v =>
      rw [hr] at h
      simp only at h
      cases hb : Memory.readBytes b m (off + 1) n with
      | ok us => rw [hb] at h; simp at h
      | error r' =>
        rw [hb] at h
        simp only [Except.error.injEq] at h
        subst h
        obtain ⟨i, hi, h1, h2, h3⟩ := ih (off + 1) r' hb
        exact ⟨i, hi, by omega, by omega, h3⟩

/-- `BufRead` looks at the bytes of its range alone (R28). -/
theorem Memory.readBytes_congr (b : Buf) (m m' : Memory) : ∀ (n off : Nat),
    (∀ i, off ≤ i → i < off + n → Memory.read m i = Memory.read m' i) →
    Memory.readBytes b m off n = Memory.readBytes b m' off n := by
  intro n
  induction n with
  | zero => intro off _; rfl
  | succ n ih =>
    intro off h
    simp only [Memory.readBytes]
    rw [h off (Nat.le_refl _) (by omega), ih (off + 1) fun i h1 h2 => h i (by omega) (by omega)]

/-- A part of a range that reads, reads the part of its bytes. -/
theorem Memory.readBytes_part (b : Buf) (m : Memory) (n : Nat) (vs : List Byte)
    (h : Memory.readBytes b m 0 n = .ok vs) (off k : Nat) (hk : off + k ≤ n) :
    Memory.readBytes b m off k = .ok ((vs.drop off).take k) := by
  obtain ⟨hl, hv⟩ := (Memory.readBytes_ok_iff b m n 0 vs).mp h
  refine (Memory.readBytes_ok_iff b m k off _).mpr ⟨by simp; omega, fun j v hj => ?_⟩
  have hj' : j < k := by
    by_contra hc
    rw [List.getElem?_eq_none (by simp; omega)] at hj
    simp at hj
  rw [List.getElem?_take_of_lt hj', List.getElem?_drop] at hj
  simpa using hv (off + j) v hj

/-- The block read of a range that reads (R65): the bytes of the block. -/
theorem readPiece_ok (b : Buf) (m : Memory) (n : Nat) (vs : List Byte)
    (h : Memory.readBytes b m 0 n = .ok vs) (k : Nat) (hk : k < blockCount n) :
    readPiece b m n k = .ok (chunk vs k) := by
  have hl := ((Memory.readBytes_ok_iff b m n 0 vs).mp h).1
  simp only [blockCount] at hk
  unfold readPiece pieceLen chunk
  rw [Memory.readBytes_part b m n vs h (16 * k) (min 16 (n - 16 * k)) (by omega)]
  congr 1
  rcases Nat.le_total 16 (n - 16 * k) with h1 | h1
  · rw [Nat.min_eq_left h1]
  · rw [Nat.min_eq_right h1, List.take_of_length_le (by simp; omega), List.take_of_length_le (by simp; omega)]

/-- Every buffer is in canonical form after reset: no byte is listed (R28, R47). -/
theorem memoriesWf_reset : memoriesWf State.reset = true := rfl

end Sys2Proof.Machine
end

