-- ==== Sys2Proof/Laws/Operands.lean ====
section
/-!
SUPPORT. The lengths of pieces and blocks, and `gctr` block by block.
-/

namespace Sys2Proof.Machine

theorem be128_length (v : Block) : (be128 v).length = 16 := by simp [be128, beBytes]

theorem chunk_length (s : List Byte) (k : Nat) : (chunk s k).length = min 16 (s.length - 16 * k) := by
  simp [chunk]

theorem xorPiece_length (d : List Byte) (ks : Block) (h : d.length ≤ 16) : (xorPiece d ks).length = d.length := by
  simp [xorPiece, be128_length, h]

theorem xorPiece_chunk_length (s : List Byte) (k : Nat) (ks : Block) :
    (xorPiece (chunk s k) ks).length = min 16 (s.length - 16 * k) := by
  rw [xorPiece_length _ _ (by rw [chunk_length]; omega), chunk_length]

theorem segmentBlocks_length (s : List Byte) : (segmentBlocks s).length = blockCount s.length := by simp [segmentBlocks]

/-- `gctr` after `k` blocks: the counter and the bytes so far. -/
def gctrUpTo (E : Block → Block) (y0 : Block) (d : List Byte) (k : Nat) : Block × List Byte :=
  (List.range k).foldl (gctrNext E d) (y0, [])

theorem gctrUpTo_zero (E : Block → Block) (y0 : Block) (d : List Byte) : gctrUpTo E y0 d 0 = (y0, []) := rfl

theorem gctrUpTo_succ (E : Block → Block) (y0 : Block) (d : List Byte) (k : Nat) :
    gctrUpTo E y0 d (k + 1) = gctrNext E d (gctrUpTo E y0 d k) k := by
  simp [gctrUpTo, List.range_succ]

theorem gctr_eq_gctrUpTo (E : Block → Block) (y0 : Block) (d : List Byte) :
    gctr E y0 d = (gctrUpTo E y0 d (blockCount d.length)).2 := rfl

theorem gctrUpTo_counter (E : Block → Block) (y0 : Block) (d : List Byte) (k : Nat) :
    (gctrUpTo E y0 d k).1 = counterBlock y0 k := by
  induction k with
  | zero => rfl
  | succ k ih => rw [gctrUpTo_succ, gctrNext, ih, counterBlock]

theorem gctrUpTo_bytes_succ (E : Block → Block) (y0 : Block) (d : List Byte) (k : Nat) :
    (gctrUpTo E y0 d (k + 1)).2 = (gctrUpTo E y0 d k).2 ++ xorPiece (chunk d k) (E (counterBlock y0 (k + 1))) := by
  rw [gctrUpTo_succ, gctrNext, gctrUpTo_counter, counterBlock]

theorem gctrUpTo_length (E : Block → Block) (y0 : Block) (d : List Byte) (k : Nat) :
    (gctrUpTo E y0 d k).2.length = min (16 * k) d.length := by
  induction k with
  | zero => simp [gctrUpTo_zero]
  | succ k ih =>
    rw [gctrUpTo_bytes_succ, List.length_append, ih, xorPiece_chunk_length]
    omega

/-- The output is as long as the input (R67). -/
theorem gctr_length (E : Block → Block) (y0 : Block) (d : List Byte) : (gctr E y0 d).length = d.length := by
  rw [gctr_eq_gctrUpTo, gctrUpTo_length, blockCount]
  omega

end Sys2Proof.Machine
end

