-- ==== Sys2Proof/Laws/State.lean ====
section
/-!
SUPPORT. One lemma per field per update, so that no later proof unfolds one. Each is true by unfolding the record update,
but for DERIVE_Y0, whose lemmas rest on the one that says everything it does.
-/

namespace Sys2Proof.Machine

variable (s : State)

/-! START and completion. -/

@[simp] theorem start_cmd (w : Word32) : (start w s).cmd = w := rfl
@[simp] theorem start_regs (w : Word32) : (start w s).regs = s.regs := rfl
@[simp] theorem start_bufs (w : Word32) : (start w s).bufs = s.bufs := rfl
@[simp] theorem start_status (w : Word32) : (start w s).status = Status.executing := rfl
@[simp] theorem start_res (w : Word32) : (start w s).res = 0 := rfl
@[simp] theorem start_tagOut (w : Word32) : (start w s).tagOut = 0 := rfl
@[simp] theorem start_outLen (w : Word32) : (start w s).outLen = 0 := rfl
@[simp] theorem start_dout (w : Word32) : (start w s).dout = [] := rfl
@[simp] theorem start_hidden (w : Word32) : (start w s).hidden = { Hidden.zero with phase := .check } := rfl
@[simp] theorem start_pending (w : Word32) : (start w s).pending = s.pending := rfl
@[simp] theorem start_replies (w : Word32) : (start w s).replies = s.replies := rfl
@[simp] theorem start_requests (w : Word32) : (start w s).requests = [] := rfl
@[simp] theorem start_split (w : Word32) : (start w s).split = s.split := rfl

@[simp] theorem complete_cmd (w : Word32) (r t : Block) (n : Word64) (d : Memory) : (complete w r t n d s).cmd = s.cmd := rfl
@[simp] theorem complete_regs (w : Word32) (r t : Block) (n : Word64) (d : Memory) : (complete w r t n d s).regs = s.regs := rfl
@[simp] theorem complete_bufs (w : Word32) (r t : Block) (n : Word64) (d : Memory) : (complete w r t n d s).bufs = s.bufs := rfl
@[simp] theorem complete_status (w : Word32) (r t : Block) (n : Word64) (d : Memory) : (complete w r t n d s).status = w := rfl
@[simp] theorem complete_res (w : Word32) (r t : Block) (n : Word64) (d : Memory) : (complete w r t n d s).res = r := rfl
@[simp] theorem complete_tagOut (w : Word32) (r t : Block) (n : Word64) (d : Memory) : (complete w r t n d s).tagOut = t := rfl
@[simp] theorem complete_outLen (w : Word32) (r t : Block) (n : Word64) (d : Memory) : (complete w r t n d s).outLen = n := rfl
@[simp] theorem complete_dout (w : Word32) (r t : Block) (n : Word64) (d : Memory) : (complete w r t n d s).dout = d := rfl
@[simp] theorem complete_hidden (w : Word32) (r t : Block) (n : Word64) (d : Memory) : (complete w r t n d s).hidden = Hidden.zero := rfl
@[simp] theorem complete_pending (w : Word32) (r t : Block) (n : Word64) (d : Memory) : (complete w r t n d s).pending = s.pending := rfl
@[simp] theorem complete_replies (w : Word32) (r t : Block) (n : Word64) (d : Memory) : (complete w r t n d s).replies = s.replies := rfl
@[simp] theorem complete_requests (w : Word32) (r t : Block) (n : Word64) (d : Memory) : (complete w r t n d s).requests = s.requests := rfl
@[simp] theorem complete_split (w : Word32) (r t : Block) (n : Word64) (d : Memory) : (complete w r t n d s).split = s.split := rfl

@[simp] theorem raiseErr_cmd (c : ErrCode) : (raiseErr c s).cmd = s.cmd := rfl
@[simp] theorem raiseErr_regs (c : ErrCode) : (raiseErr c s).regs = s.regs := rfl
@[simp] theorem raiseErr_bufs (c : ErrCode) : (raiseErr c s).bufs = s.bufs := rfl
@[simp] theorem raiseErr_status (c : ErrCode) : (raiseErr c s).status = Status.failed c := rfl
@[simp] theorem raiseErr_res (c : ErrCode) : (raiseErr c s).res = 0 := rfl
@[simp] theorem raiseErr_tagOut (c : ErrCode) : (raiseErr c s).tagOut = 0 := rfl
@[simp] theorem raiseErr_outLen (c : ErrCode) : (raiseErr c s).outLen = 0 := rfl
@[simp] theorem raiseErr_dout (c : ErrCode) : (raiseErr c s).dout = [] := rfl
@[simp] theorem raiseErr_hidden (c : ErrCode) : (raiseErr c s).hidden = Hidden.zero := rfl
@[simp] theorem raiseErr_pending (c : ErrCode) : (raiseErr c s).pending = s.pending := rfl
@[simp] theorem raiseErr_replies (c : ErrCode) : (raiseErr c s).replies = s.replies := rfl
@[simp] theorem raiseErr_requests (c : ErrCode) : (raiseErr c s).requests = s.requests := rfl
@[simp] theorem raiseErr_split (c : ErrCode) : (raiseErr c s).split = s.split := rfl

@[simp] theorem publishRes_cmd (v : Block) : (publishRes v s).cmd = s.cmd := rfl
@[simp] theorem publishRes_regs (v : Block) : (publishRes v s).regs = s.regs := rfl
@[simp] theorem publishRes_bufs (v : Block) : (publishRes v s).bufs = s.bufs := rfl
@[simp] theorem publishRes_status (v : Block) : (publishRes v s).status = Status.succeeded := rfl
@[simp] theorem publishRes_res (v : Block) : (publishRes v s).res = v := rfl
@[simp] theorem publishRes_tagOut (v : Block) : (publishRes v s).tagOut = 0 := rfl
@[simp] theorem publishRes_outLen (v : Block) : (publishRes v s).outLen = 0 := rfl
@[simp] theorem publishRes_dout (v : Block) : (publishRes v s).dout = [] := rfl
@[simp] theorem publishRes_hidden (v : Block) : (publishRes v s).hidden = Hidden.zero := rfl
@[simp] theorem publishRes_pending (v : Block) : (publishRes v s).pending = s.pending := rfl
@[simp] theorem publishRes_replies (v : Block) : (publishRes v s).replies = s.replies := rfl
@[simp] theorem publishRes_requests (v : Block) : (publishRes v s).requests = s.requests := rfl
@[simp] theorem publishRes_split (v : Block) : (publishRes v s).split = s.split := rfl

@[simp] theorem publishEncrypted_cmd : (publishEncrypted s).cmd = s.cmd := rfl
@[simp] theorem publishEncrypted_regs : (publishEncrypted s).regs = s.regs := rfl
@[simp] theorem publishEncrypted_bufs : (publishEncrypted s).bufs = s.bufs := rfl
@[simp] theorem publishEncrypted_status : (publishEncrypted s).status = Status.succeeded := rfl
@[simp] theorem publishEncrypted_res : (publishEncrypted s).res = 0 := rfl
@[simp] theorem publishEncrypted_tagOut : (publishEncrypted s).tagOut = s.hidden.tagX := rfl
@[simp] theorem publishEncrypted_outLen : (publishEncrypted s).outLen = s.regs.dataLen := rfl
@[simp] theorem publishEncrypted_dout : (publishEncrypted s).dout = releasedBytes s := rfl
@[simp] theorem publishEncrypted_hidden : (publishEncrypted s).hidden = Hidden.zero := rfl
@[simp] theorem publishEncrypted_pending : (publishEncrypted s).pending = s.pending := rfl
@[simp] theorem publishEncrypted_replies : (publishEncrypted s).replies = s.replies := rfl
@[simp] theorem publishEncrypted_requests : (publishEncrypted s).requests = s.requests := rfl
@[simp] theorem publishEncrypted_split : (publishEncrypted s).split = s.split := rfl

@[simp] theorem publishDecrypted_cmd : (publishDecrypted s).cmd = s.cmd := rfl
@[simp] theorem publishDecrypted_regs : (publishDecrypted s).regs = s.regs := rfl
@[simp] theorem publishDecrypted_bufs : (publishDecrypted s).bufs = s.bufs := rfl
@[simp] theorem publishDecrypted_status : (publishDecrypted s).status = Status.authenticated := rfl
@[simp] theorem publishDecrypted_res : (publishDecrypted s).res = 0 := rfl
@[simp] theorem publishDecrypted_tagOut : (publishDecrypted s).tagOut = 0 := rfl
@[simp] theorem publishDecrypted_outLen : (publishDecrypted s).outLen = s.regs.dataLen := rfl
@[simp] theorem publishDecrypted_dout : (publishDecrypted s).dout = releasedBytes s := rfl
@[simp] theorem publishDecrypted_hidden : (publishDecrypted s).hidden = Hidden.zero := rfl
@[simp] theorem publishDecrypted_pending : (publishDecrypted s).pending = s.pending := rfl
@[simp] theorem publishDecrypted_replies : (publishDecrypted s).replies = s.replies := rfl
@[simp] theorem publishDecrypted_requests : (publishDecrypted s).requests = s.requests := rfl
@[simp] theorem publishDecrypted_split : (publishDecrypted s).split = s.split := rfl

/-! Updates of the hidden state alone. -/

@[simp] theorem enterPhase_cmd (p : Phase) : (enterPhase p s).cmd = s.cmd := rfl
@[simp] theorem enterPhase_regs (p : Phase) : (enterPhase p s).regs = s.regs := rfl
@[simp] theorem enterPhase_bufs (p : Phase) : (enterPhase p s).bufs = s.bufs := rfl
@[simp] theorem enterPhase_status (p : Phase) : (enterPhase p s).status = s.status := rfl
@[simp] theorem enterPhase_res (p : Phase) : (enterPhase p s).res = s.res := rfl
@[simp] theorem enterPhase_tagOut (p : Phase) : (enterPhase p s).tagOut = s.tagOut := rfl
@[simp] theorem enterPhase_outLen (p : Phase) : (enterPhase p s).outLen = s.outLen := rfl
@[simp] theorem enterPhase_dout (p : Phase) : (enterPhase p s).dout = s.dout := rfl
@[simp] theorem enterPhase_hidden (p : Phase) : (enterPhase p s).hidden = { s.hidden with phase := p, blk := 0 } := rfl
@[simp] theorem enterPhase_pending (p : Phase) : (enterPhase p s).pending = s.pending := rfl
@[simp] theorem enterPhase_replies (p : Phase) : (enterPhase p s).replies = s.replies := rfl
@[simp] theorem enterPhase_requests (p : Phase) : (enterPhase p s).requests = s.requests := rfl
@[simp] theorem enterPhase_split (p : Phase) : (enterPhase p s).split = s.split := rfl

@[simp] theorem runMultiplier_cmd (a b : Block) : (runMultiplier a b s).cmd = s.cmd := rfl
@[simp] theorem runMultiplier_regs (a b : Block) : (runMultiplier a b s).regs = s.regs := rfl
@[simp] theorem runMultiplier_bufs (a b : Block) : (runMultiplier a b s).bufs = s.bufs := rfl
@[simp] theorem runMultiplier_status (a b : Block) : (runMultiplier a b s).status = s.status := rfl
@[simp] theorem runMultiplier_res (a b : Block) : (runMultiplier a b s).res = s.res := rfl
@[simp] theorem runMultiplier_tagOut (a b : Block) : (runMultiplier a b s).tagOut = s.tagOut := rfl
@[simp] theorem runMultiplier_outLen (a b : Block) : (runMultiplier a b s).outLen = s.outLen := rfl
@[simp] theorem runMultiplier_dout (a b : Block) : (runMultiplier a b s).dout = s.dout := rfl
@[simp] theorem runMultiplier_hidden (a b : Block) : (runMultiplier a b s).hidden = { s.hidden with mul := mulRun a b } := rfl
@[simp] theorem runMultiplier_pending (a b : Block) : (runMultiplier a b s).pending = s.pending := rfl
@[simp] theorem runMultiplier_replies (a b : Block) : (runMultiplier a b s).replies = s.replies := rfl
@[simp] theorem runMultiplier_requests (a b : Block) : (runMultiplier a b s).requests = s.requests := rfl
@[simp] theorem runMultiplier_split (a b : Block) : (runMultiplier a b s).split = s.split := rfl

@[simp] theorem loadSubkey_cmd : (loadSubkey s).cmd = s.cmd := rfl
@[simp] theorem loadSubkey_regs : (loadSubkey s).regs = s.regs := rfl
@[simp] theorem loadSubkey_bufs : (loadSubkey s).bufs = s.bufs := rfl
@[simp] theorem loadSubkey_status : (loadSubkey s).status = s.status := rfl
@[simp] theorem loadSubkey_res : (loadSubkey s).res = s.res := rfl
@[simp] theorem loadSubkey_tagOut : (loadSubkey s).tagOut = s.tagOut := rfl
@[simp] theorem loadSubkey_outLen : (loadSubkey s).outLen = s.outLen := rfl
@[simp] theorem loadSubkey_dout : (loadSubkey s).dout = s.dout := rfl
@[simp] theorem loadSubkey_hidden : (loadSubkey s).hidden = { s.hidden with h := s.regs.opa } := rfl
@[simp] theorem loadSubkey_pending : (loadSubkey s).pending = s.pending := rfl
@[simp] theorem loadSubkey_replies : (loadSubkey s).replies = s.replies := rfl
@[simp] theorem loadSubkey_requests : (loadSubkey s).requests = s.requests := rfl
@[simp] theorem loadSubkey_split : (loadSubkey s).split = s.split := rfl

@[simp] theorem enterHashA_cmd : (enterHashA s).cmd = s.cmd := rfl
@[simp] theorem enterHashA_regs : (enterHashA s).regs = s.regs := rfl
@[simp] theorem enterHashA_bufs : (enterHashA s).bufs = s.bufs := rfl
@[simp] theorem enterHashA_status : (enterHashA s).status = s.status := rfl
@[simp] theorem enterHashA_res : (enterHashA s).res = s.res := rfl
@[simp] theorem enterHashA_tagOut : (enterHashA s).tagOut = s.tagOut := rfl
@[simp] theorem enterHashA_outLen : (enterHashA s).outLen = s.outLen := rfl
@[simp] theorem enterHashA_dout : (enterHashA s).dout = s.dout := rfl
@[simp] theorem enterHashA_hidden : (enterHashA s).hidden = { s.hidden with phase := .hashA, blk := 0, lenA := bitLen s.regs.aadLen, lenC := bitLen s.regs.dataLen, x := 0 } := rfl
@[simp] theorem enterHashA_pending : (enterHashA s).pending = s.pending := rfl
@[simp] theorem enterHashA_replies : (enterHashA s).replies = s.replies := rfl
@[simp] theorem enterHashA_requests : (enterHashA s).requests = s.requests := rfl
@[simp] theorem enterHashA_split : (enterHashA s).split = s.split := rfl

@[simp] theorem absorbInto_cmd (b : Block) : (absorbInto b s).cmd = s.cmd := rfl
@[simp] theorem absorbInto_regs (b : Block) : (absorbInto b s).regs = s.regs := rfl
@[simp] theorem absorbInto_bufs (b : Block) : (absorbInto b s).bufs = s.bufs := rfl
@[simp] theorem absorbInto_status (b : Block) : (absorbInto b s).status = s.status := rfl
@[simp] theorem absorbInto_res (b : Block) : (absorbInto b s).res = s.res := rfl
@[simp] theorem absorbInto_tagOut (b : Block) : (absorbInto b s).tagOut = s.tagOut := rfl
@[simp] theorem absorbInto_outLen (b : Block) : (absorbInto b s).outLen = s.outLen := rfl
@[simp] theorem absorbInto_dout (b : Block) : (absorbInto b s).dout = s.dout := rfl
@[simp] theorem absorbInto_hidden (b : Block) : (absorbInto b s).hidden = { s.hidden with mul := mulRun (gfAdd s.hidden.x b) s.hidden.h, x := absorb s.hidden.x b s.hidden.h } := rfl
@[simp] theorem absorbInto_pending (b : Block) : (absorbInto b s).pending = s.pending := rfl
@[simp] theorem absorbInto_replies (b : Block) : (absorbInto b s).replies = s.replies := rfl
@[simp] theorem absorbInto_requests (b : Block) : (absorbInto b s).requests = s.requests := rfl
@[simp] theorem absorbInto_split (b : Block) : (absorbInto b s).split = s.split := rfl

@[simp] theorem absorbNext_cmd (b : Block) : (absorbNext s b).cmd = s.cmd := rfl
@[simp] theorem absorbNext_regs (b : Block) : (absorbNext s b).regs = s.regs := rfl
@[simp] theorem absorbNext_bufs (b : Block) : (absorbNext s b).bufs = s.bufs := rfl
@[simp] theorem absorbNext_status (b : Block) : (absorbNext s b).status = s.status := rfl
@[simp] theorem absorbNext_res (b : Block) : (absorbNext s b).res = s.res := rfl
@[simp] theorem absorbNext_tagOut (b : Block) : (absorbNext s b).tagOut = s.tagOut := rfl
@[simp] theorem absorbNext_outLen (b : Block) : (absorbNext s b).outLen = s.outLen := rfl
@[simp] theorem absorbNext_dout (b : Block) : (absorbNext s b).dout = s.dout := rfl
@[simp] theorem absorbNext_hidden (b : Block) : (absorbNext s b).hidden = { s.hidden with blk := s.hidden.blk + 1, mul := mulRun (gfAdd s.hidden.x b) s.hidden.h, x := absorb s.hidden.x b s.hidden.h } := rfl
@[simp] theorem absorbNext_pending (b : Block) : (absorbNext s b).pending = s.pending := rfl
@[simp] theorem absorbNext_replies (b : Block) : (absorbNext s b).replies = s.replies := rfl
@[simp] theorem absorbNext_requests (b : Block) : (absorbNext s b).requests = s.requests := rfl
@[simp] theorem absorbNext_split (b : Block) : (absorbNext s b).split = s.split := rfl

@[simp] theorem absorbLengths_cmd : (absorbLengths s).cmd = s.cmd := rfl
@[simp] theorem absorbLengths_regs : (absorbLengths s).regs = s.regs := rfl
@[simp] theorem absorbLengths_bufs : (absorbLengths s).bufs = s.bufs := rfl
@[simp] theorem absorbLengths_status : (absorbLengths s).status = s.status := rfl
@[simp] theorem absorbLengths_res : (absorbLengths s).res = s.res := rfl
@[simp] theorem absorbLengths_tagOut : (absorbLengths s).tagOut = s.tagOut := rfl
@[simp] theorem absorbLengths_outLen : (absorbLengths s).outLen = s.outLen := rfl
@[simp] theorem absorbLengths_dout : (absorbLengths s).dout = s.dout := rfl
@[simp] theorem absorbLengths_hidden : (absorbLengths s).hidden = { s.hidden with mul := mulRun (gfAdd s.hidden.x (lenBlock s.hidden.lenA s.hidden.lenC)) s.hidden.h, x := absorb s.hidden.x (lenBlock s.hidden.lenA s.hidden.lenC) s.hidden.h } := rfl
@[simp] theorem absorbLengths_pending : (absorbLengths s).pending = s.pending := rfl
@[simp] theorem absorbLengths_replies : (absorbLengths s).replies = s.replies := rfl
@[simp] theorem absorbLengths_requests : (absorbLengths s).requests = s.requests := rfl
@[simp] theorem absorbLengths_split : (absorbLengths s).split = s.split := rfl

/-- Absorbing blocks changes X and the multiplier alone, and X as the chain of R134 says. -/
theorem foldl_absorbInto (bs : List Block) : ∀ s : State, ∃ m,
    bs.foldl (fun s block => absorbInto block s) s =
      { s with hidden := { s.hidden with mul := m, x := absorbAll s.hidden.h s.hidden.x bs } } := by
  induction bs with
  | nil => exact fun s => ⟨s.hidden.mul, rfl⟩
  | cons c bs ih =>
    intro s
    obtain ⟨m, h⟩ := ih (absorbInto c s)
    exact ⟨m, by rw [List.foldl_cons, h]; rfl⟩

/-- The hash of a nonce on the hidden registers leaves `ghash(H, "", N)` in X (R153). -/
theorem hashNonce_eq (n : List Byte) : ∃ m,
    hashNonce n s = { s with hidden := { s.hidden with mul := m, x := ghash s.hidden.h [] n } } := by
  obtain ⟨m, h⟩ := foldl_absorbInto (segmentBlocks n ++ [lenBlockOf [] n])
    { s with hidden := { s.hidden with x := 0 } }
  refine ⟨m, ?_⟩
  rw [hashNonce, h]
  simp [ghash, absorbAll, segmentBlocks, blockCount]

/-- Everything DERIVE_Y0 does: Y0 and Y hold `derive_y0(H, N)`; beside them only X and the multiplier can differ. -/
theorem deriveCounter_eq (n : List Byte) : ∃ x m,
    deriveCounter n s =
      { s with
        hidden := { s.hidden with
          x := x, mul := m, y0 := deriveY0 s.hidden.h n, y := deriveY0 s.hidden.h n } } := by
  unfold deriveCounter deriveY0
  split
  · exact ⟨s.hidden.x, s.hidden.mul, rfl⟩
  · obtain ⟨m, h⟩ := hashNonce_eq s n
    exact ⟨_, m, by rw [h]; rfl⟩

@[simp] theorem deriveCounter_cmd (n : List Byte) : (deriveCounter n s).cmd = s.cmd := by
  obtain ⟨x, m, h⟩ := deriveCounter_eq s n; rw [h]
@[simp] theorem deriveCounter_regs (n : List Byte) : (deriveCounter n s).regs = s.regs := by
  obtain ⟨x, m, h⟩ := deriveCounter_eq s n; rw [h]
@[simp] theorem deriveCounter_bufs (n : List Byte) : (deriveCounter n s).bufs = s.bufs := by
  obtain ⟨x, m, h⟩ := deriveCounter_eq s n; rw [h]
@[simp] theorem deriveCounter_status (n : List Byte) : (deriveCounter n s).status = s.status := by
  obtain ⟨x, m, h⟩ := deriveCounter_eq s n; rw [h]
@[simp] theorem deriveCounter_res (n : List Byte) : (deriveCounter n s).res = s.res := by
  obtain ⟨x, m, h⟩ := deriveCounter_eq s n; rw [h]
@[simp] theorem deriveCounter_tagOut (n : List Byte) : (deriveCounter n s).tagOut = s.tagOut := by
  obtain ⟨x, m, h⟩ := deriveCounter_eq s n; rw [h]
@[simp] theorem deriveCounter_outLen (n : List Byte) : (deriveCounter n s).outLen = s.outLen := by
  obtain ⟨x, m, h⟩ := deriveCounter_eq s n; rw [h]
@[simp] theorem deriveCounter_dout (n : List Byte) : (deriveCounter n s).dout = s.dout := by
  obtain ⟨x, m, h⟩ := deriveCounter_eq s n; rw [h]
@[simp] theorem deriveCounter_pending (n : List Byte) : (deriveCounter n s).pending = s.pending := by
  obtain ⟨x, m, h⟩ := deriveCounter_eq s n; rw [h]
@[simp] theorem deriveCounter_replies (n : List Byte) : (deriveCounter n s).replies = s.replies := by
  obtain ⟨x, m, h⟩ := deriveCounter_eq s n; rw [h]
@[simp] theorem deriveCounter_requests (n : List Byte) : (deriveCounter n s).requests = s.requests := by
  obtain ⟨x, m, h⟩ := deriveCounter_eq s n; rw [h]
@[simp] theorem deriveCounter_split (n : List Byte) : (deriveCounter n s).split = s.split := by
  obtain ⟨x, m, h⟩ := deriveCounter_eq s n; rw [h]
@[simp] theorem deriveCounter_hidden_phase (n : List Byte) : (deriveCounter n s).hidden.phase = s.hidden.phase := by
  obtain ⟨x, m, h⟩ := deriveCounter_eq s n; rw [h]
@[simp] theorem deriveCounter_hidden_blk (n : List Byte) : (deriveCounter n s).hidden.blk = s.hidden.blk := by
  obtain ⟨x, m, h⟩ := deriveCounter_eq s n; rw [h]
@[simp] theorem deriveCounter_hidden_h (n : List Byte) : (deriveCounter n s).hidden.h = s.hidden.h := by
  obtain ⟨x, m, h⟩ := deriveCounter_eq s n; rw [h]
@[simp] theorem deriveCounter_hidden_eky0 (n : List Byte) : (deriveCounter n s).hidden.eky0 = s.hidden.eky0 := by
  obtain ⟨x, m, h⟩ := deriveCounter_eq s n; rw [h]
@[simp] theorem deriveCounter_hidden_lenA (n : List Byte) : (deriveCounter n s).hidden.lenA = s.hidden.lenA := by
  obtain ⟨x, m, h⟩ := deriveCounter_eq s n; rw [h]
@[simp] theorem deriveCounter_hidden_lenC (n : List Byte) : (deriveCounter n s).hidden.lenC = s.hidden.lenC := by
  obtain ⟨x, m, h⟩ := deriveCounter_eq s n; rw [h]
@[simp] theorem deriveCounter_hidden_tagX (n : List Byte) : (deriveCounter n s).hidden.tagX = s.hidden.tagX := by
  obtain ⟨x, m, h⟩ := deriveCounter_eq s n; rw [h]
@[simp] theorem deriveCounter_hidden_obuf (n : List Byte) : (deriveCounter n s).hidden.obuf = s.hidden.obuf := by
  obtain ⟨x, m, h⟩ := deriveCounter_eq s n; rw [h]
@[simp] theorem deriveCounter_hidden_y0 (n : List Byte) : (deriveCounter n s).hidden.y0 = deriveY0 s.hidden.h n := by
  obtain ⟨x, m, h⟩ := deriveCounter_eq s n; rw [h]
@[simp] theorem deriveCounter_hidden_y (n : List Byte) : (deriveCounter n s).hidden.y = deriveY0 s.hidden.h n := by
  obtain ⟨x, m, h⟩ := deriveCounter_eq s n; rw [h]

/-! Updates of the hidden state and of the record of cipher requests. -/

@[simp] theorem recordRequest_cmd (k : List Byte) (b : Block) : (recordRequest k b s).cmd = s.cmd := rfl
@[simp] theorem recordRequest_regs (k : List Byte) (b : Block) : (recordRequest k b s).regs = s.regs := rfl
@[simp] theorem recordRequest_bufs (k : List Byte) (b : Block) : (recordRequest k b s).bufs = s.bufs := rfl
@[simp] theorem recordRequest_status (k : List Byte) (b : Block) : (recordRequest k b s).status = s.status := rfl
@[simp] theorem recordRequest_res (k : List Byte) (b : Block) : (recordRequest k b s).res = s.res := rfl
@[simp] theorem recordRequest_tagOut (k : List Byte) (b : Block) : (recordRequest k b s).tagOut = s.tagOut := rfl
@[simp] theorem recordRequest_outLen (k : List Byte) (b : Block) : (recordRequest k b s).outLen = s.outLen := rfl
@[simp] theorem recordRequest_dout (k : List Byte) (b : Block) : (recordRequest k b s).dout = s.dout := rfl
@[simp] theorem recordRequest_hidden (k : List Byte) (b : Block) : (recordRequest k b s).hidden = s.hidden := rfl
@[simp] theorem recordRequest_pending (k : List Byte) (b : Block) : (recordRequest k b s).pending = s.pending := rfl
@[simp] theorem recordRequest_replies (k : List Byte) (b : Block) : (recordRequest k b s).replies = s.replies := rfl
@[simp] theorem recordRequest_requests (k : List Byte) (b : Block) : (recordRequest k b s).requests = s.requests ++ [⟨k, b⟩] := rfl
@[simp] theorem recordRequest_split (k : List Byte) (b : Block) : (recordRequest k b s).split = s.split := rfl

@[simp] theorem deriveSubkey_cmd (P : Params) (k : List Byte) : (deriveSubkey P k s).cmd = s.cmd := rfl
@[simp] theorem deriveSubkey_regs (P : Params) (k : List Byte) : (deriveSubkey P k s).regs = s.regs := rfl
@[simp] theorem deriveSubkey_bufs (P : Params) (k : List Byte) : (deriveSubkey P k s).bufs = s.bufs := rfl
@[simp] theorem deriveSubkey_status (P : Params) (k : List Byte) : (deriveSubkey P k s).status = s.status := rfl
@[simp] theorem deriveSubkey_res (P : Params) (k : List Byte) : (deriveSubkey P k s).res = s.res := rfl
@[simp] theorem deriveSubkey_tagOut (P : Params) (k : List Byte) : (deriveSubkey P k s).tagOut = s.tagOut := rfl
@[simp] theorem deriveSubkey_outLen (P : Params) (k : List Byte) : (deriveSubkey P k s).outLen = s.outLen := rfl
@[simp] theorem deriveSubkey_dout (P : Params) (k : List Byte) : (deriveSubkey P k s).dout = s.dout := rfl
@[simp] theorem deriveSubkey_hidden (P : Params) (k : List Byte) : (deriveSubkey P k s).hidden = { s.hidden with h := P.cipher k 0 } := rfl
@[simp] theorem deriveSubkey_pending (P : Params) (k : List Byte) : (deriveSubkey P k s).pending = s.pending := rfl
@[simp] theorem deriveSubkey_replies (P : Params) (k : List Byte) : (deriveSubkey P k s).replies = s.replies := rfl
@[simp] theorem deriveSubkey_requests (P : Params) (k : List Byte) : (deriveSubkey P k s).requests = s.requests ++ [⟨k, 0⟩] := rfl
@[simp] theorem deriveSubkey_split (P : Params) (k : List Byte) : (deriveSubkey P k s).split = s.split := rfl

@[simp] theorem keystreamBlock_cmd (P : Params) (k d : List Byte) : (keystreamBlock P k d s).cmd = s.cmd := rfl
@[simp] theorem keystreamBlock_regs (P : Params) (k d : List Byte) : (keystreamBlock P k d s).regs = s.regs := rfl
@[simp] theorem keystreamBlock_bufs (P : Params) (k d : List Byte) : (keystreamBlock P k d s).bufs = s.bufs := rfl
@[simp] theorem keystreamBlock_status (P : Params) (k d : List Byte) : (keystreamBlock P k d s).status = s.status := rfl
@[simp] theorem keystreamBlock_res (P : Params) (k d : List Byte) : (keystreamBlock P k d s).res = s.res := rfl
@[simp] theorem keystreamBlock_tagOut (P : Params) (k d : List Byte) : (keystreamBlock P k d s).tagOut = s.tagOut := rfl
@[simp] theorem keystreamBlock_outLen (P : Params) (k d : List Byte) : (keystreamBlock P k d s).outLen = s.outLen := rfl
@[simp] theorem keystreamBlock_dout (P : Params) (k d : List Byte) : (keystreamBlock P k d s).dout = s.dout := rfl
@[simp] theorem keystreamBlock_hidden (P : Params) (k d : List Byte) : (keystreamBlock P k d s).hidden = { s.hidden with y := inc32 s.hidden.y, blk := s.hidden.blk + 1, obuf := Memory.writeBytes s.hidden.obuf (16 * s.hidden.blk.toNat) (xorPiece d (P.cipher k (inc32 s.hidden.y))) } := rfl
@[simp] theorem keystreamBlock_pending (P : Params) (k d : List Byte) : (keystreamBlock P k d s).pending = s.pending := rfl
@[simp] theorem keystreamBlock_replies (P : Params) (k d : List Byte) : (keystreamBlock P k d s).replies = s.replies := rfl
@[simp] theorem keystreamBlock_requests (P : Params) (k d : List Byte) : (keystreamBlock P k d s).requests = s.requests ++ [⟨k, inc32 s.hidden.y⟩] := rfl
@[simp] theorem keystreamBlock_split (P : Params) (k d : List Byte) : (keystreamBlock P k d s).split = s.split := rfl

@[simp] theorem maskTag_cmd (P : Params) (k : List Byte) : (maskTag P k s).cmd = s.cmd := rfl
@[simp] theorem maskTag_regs (P : Params) (k : List Byte) : (maskTag P k s).regs = s.regs := rfl
@[simp] theorem maskTag_bufs (P : Params) (k : List Byte) : (maskTag P k s).bufs = s.bufs := rfl
@[simp] theorem maskTag_status (P : Params) (k : List Byte) : (maskTag P k s).status = s.status := rfl
@[simp] theorem maskTag_res (P : Params) (k : List Byte) : (maskTag P k s).res = s.res := rfl
@[simp] theorem maskTag_tagOut (P : Params) (k : List Byte) : (maskTag P k s).tagOut = s.tagOut := rfl
@[simp] theorem maskTag_outLen (P : Params) (k : List Byte) : (maskTag P k s).outLen = s.outLen := rfl
@[simp] theorem maskTag_dout (P : Params) (k : List Byte) : (maskTag P k s).dout = s.dout := rfl
@[simp] theorem maskTag_hidden (P : Params) (k : List Byte) : (maskTag P k s).hidden = { s.hidden with eky0 := P.cipher k s.hidden.y0, tagX := s.hidden.x ^^^ P.cipher k s.hidden.y0 } := rfl
@[simp] theorem maskTag_pending (P : Params) (k : List Byte) : (maskTag P k s).pending = s.pending := rfl
@[simp] theorem maskTag_replies (P : Params) (k : List Byte) : (maskTag P k s).replies = s.replies := rfl
@[simp] theorem maskTag_requests (P : Params) (k : List Byte) : (maskTag P k s).requests = s.requests ++ [⟨k, s.hidden.y0⟩] := rfl
@[simp] theorem maskTag_split (P : Params) (k : List Byte) : (maskTag P k s).split = s.split := rfl

/-! The host port. -/

@[simp] theorem reply_cmd (a : HostReply) : (reply a s).cmd = s.cmd := rfl
@[simp] theorem reply_regs (a : HostReply) : (reply a s).regs = s.regs := rfl
@[simp] theorem reply_bufs (a : HostReply) : (reply a s).bufs = s.bufs := rfl
@[simp] theorem reply_status (a : HostReply) : (reply a s).status = s.status := rfl
@[simp] theorem reply_res (a : HostReply) : (reply a s).res = s.res := rfl
@[simp] theorem reply_tagOut (a : HostReply) : (reply a s).tagOut = s.tagOut := rfl
@[simp] theorem reply_outLen (a : HostReply) : (reply a s).outLen = s.outLen := rfl
@[simp] theorem reply_dout (a : HostReply) : (reply a s).dout = s.dout := rfl
@[simp] theorem reply_hidden (a : HostReply) : (reply a s).hidden = s.hidden := rfl
@[simp] theorem reply_pending (a : HostReply) : (reply a s).pending = s.pending := rfl
@[simp] theorem reply_replies (a : HostReply) : (reply a s).replies = s.replies ++ [a] := rfl
@[simp] theorem reply_requests (a : HostReply) : (reply a s).requests = s.requests := rfl
@[simp] theorem reply_split (a : HostReply) : (reply a s).split = s.split := rfl

@[simp] theorem resetCore_cmd : (resetCore s).cmd = 0 := rfl
@[simp] theorem resetCore_regs : (resetCore s).regs = HostRegs.zero := rfl
@[simp] theorem resetCore_bufs : (resetCore s).bufs = InputBufs.unwritten := rfl
@[simp] theorem resetCore_status : (resetCore s).status = 0 := rfl
@[simp] theorem resetCore_res : (resetCore s).res = 0 := rfl
@[simp] theorem resetCore_tagOut : (resetCore s).tagOut = 0 := rfl
@[simp] theorem resetCore_outLen : (resetCore s).outLen = 0 := rfl
@[simp] theorem resetCore_dout : (resetCore s).dout = [] := rfl
@[simp] theorem resetCore_hidden : (resetCore s).hidden = Hidden.zero := rfl
@[simp] theorem resetCore_pending : (resetCore s).pending = s.pending := rfl
@[simp] theorem resetCore_replies : (resetCore s).replies = s.replies := rfl
@[simp] theorem resetCore_requests : (resetCore s).requests = [] := rfl
@[simp] theorem resetCore_split : (resetCore s).split = s.split := rfl

end Sys2Proof.Machine
end

