-- ==== Sys2Proof/Laws/Phases.lean ====
section
/-!
SUPPORT. What each phase does to the state, said once: the hash phases, the keystream phase, and the phases of the two
session commands together.
-/

namespace Sys2Proof.Machine

/-- Absorbing blocks changes BLK, X and the multiplier alone, and X as the chain of R134 says. -/
theorem foldl_absorbNext (bs : List Block) : ∀ s : State, ∃ b m,
    bs.foldl absorbNext s =
      { s with hidden := { s.hidden with blk := b, mul := m, x := absorbAll s.hidden.h s.hidden.x bs } } := by
  induction bs with
  | nil => exact fun s => ⟨s.hidden.blk, s.hidden.mul, rfl⟩
  | cons c bs ih =>
    intro s
    obtain ⟨b, m, h⟩ := ih (absorbNext s c)
    exact ⟨b, m, by rw [List.foldl_cons, h]; rfl⟩

/-- The hash phases leave in X the chain over `a`, `c` and the length block of the length registers. -/
theorem hashPhases_eq (a c : List Byte) (s : State) : ∃ m,
    hashPhases a c s =
      { s with
        hidden := { s.hidden with
          phase := .hashL
          blk := 0
          mul := m
          lenA := bitLen s.regs.aadLen
          lenC := bitLen s.regs.dataLen
          x := absorb (absorbAll s.hidden.h (absorbAll s.hidden.h 0 (segmentBlocks a)) (segmentBlocks c))
            (lenBlock (bitLen s.regs.aadLen) (bitLen s.regs.dataLen)) s.hidden.h } } := by
  obtain ⟨b1, m1, h1⟩ := foldl_absorbNext (segmentBlocks a) (enterHashA s)
  obtain ⟨b2, m2, h2⟩ := foldl_absorbNext (segmentBlocks c) (enterPhase .hashC ((segmentBlocks a).foldl absorbNext (enterHashA s)))
  refine ⟨(hashPhases a c s).hidden.mul, ?_⟩
  simp only [hashPhases]
  rw [h2, h1]
  rfl

/-- The hash phases leave `ghash(H, a, c)` in X when the length registers hold the lengths (R134, R136). -/
theorem hashPhases_ghash (a c : List Byte) (s : State) (ha : a.length = s.regs.aadLen.toNat)
    (hc : c.length = s.regs.dataLen.toNat) : ∃ m,
    hashPhases a c s =
      { s with
        hidden := { s.hidden with
          phase := .hashL
          blk := 0
          mul := m
          lenA := bitLen s.regs.aadLen
          lenC := bitLen s.regs.dataLen
          x := ghash s.hidden.h a c } } := by
  obtain ⟨m, h⟩ := hashPhases_eq a c s
  refine ⟨m, ?_⟩
  rw [h, ghash, lenBlockOf, ha, hc]
  simp

/-- The keystream phase from an empty OBUF: OBUF holds `gctr` of the data, Y has stepped once a block, and each block
has been asked for (R176, R180). -/
theorem keystreamPhase_eq (P : Params) (key data : List Byte) (s : State) (hob : s.hidden.obuf = [])
    (hlen : data.length < 2 ^ 64) :
    keystreamPhase P key data s =
      { s with
        requests := s.requests ++
          (List.range (blockCount data.length)).map fun i => ⟨key, counterBlock s.hidden.y (i + 1)⟩
        hidden := { s.hidden with
          phase := .keystream
          blk := BitVec.ofNat 64 (blockCount data.length)
          y := counterBlock s.hidden.y (blockCount data.length)
          obuf := Memory.cellsFrom 0 (gctr (P.cipher key) s.hidden.y data) } } := by
  have key_step : ∀ k, k ≤ blockCount data.length →
      (List.range k).foldl (fun s k => keystreamBlock P key (chunk data k) s) (enterPhase .keystream s) =
      { s with
        requests := s.requests ++ (List.range k).map fun i => ⟨key, counterBlock s.hidden.y (i + 1)⟩
        hidden := { s.hidden with
          phase := .keystream
          blk := BitVec.ofNat 64 k
          y := counterBlock s.hidden.y k
          obuf := Memory.cellsFrom 0 (gctrUpTo (P.cipher key) s.hidden.y data k).2 } } := by
    intro k
    induction k with
    | zero => intro _; simp [enterPhase, gctrUpTo_zero, counterBlock, hob]
    | succ k ih =>
      intro hk
      have hk' : 16 * k < data.length := by simp only [blockCount] at hk; omega
      rw [List.range_succ, List.foldl_append, ih (by omega)]
      have hblk : (BitVec.ofNat 64 k).toNat = k := by simp; omega
      have hpos : (gctrUpTo (P.cipher key) s.hidden.y data k).2.length = 16 * k := by rw [gctrUpTo_length]; omega
      simp only [List.foldl_cons, List.foldl_nil, keystreamBlock, recordRequest]
      rw [hblk, Memory.writeBytes_append, gctrUpTo_bytes_succ, Memory.cellsFrom_append, hpos]
      · simp [counterBlock, List.append_assoc, BitVec.ofNat_add]
      · intro a ha
        rw [Memory.keys_cellsFrom, hpos] at ha
        simp only [List.mem_range'_1] at ha
        omega
  exact key_step _ (Nat.le_refl _)

/-- SUBKEY and DERIVE_Y0 after START (R173, R174). -/
theorem sessionStart_eq (P : Params) (op : GcmOperands) (s : State) : ∃ x m,
    sessionStart P op s =
      { s with
        requests := s.requests ++ [⟨op.key, 0⟩]
        hidden := { s.hidden with
          phase := .deriveY0
          blk := 0
          h := P.cipher op.key 0
          x := x
          mul := m
          y0 := deriveY0 (P.cipher op.key 0) op.nonce
          y := deriveY0 (P.cipher op.key 0) op.nonce } } :=
  deriveCounter_eq (enterPhase .deriveY0 (deriveSubkey P op.key (enterPhase .subkey s))) op.nonce

/-- The bytes of the cells of a sequence, below its length, are all of them. -/
theorem below_cellsFrom (vs : List Byte) (n : Nat) (h : vs.length ≤ n) :
    Memory.below (Memory.cellsFrom 0 vs) n = Memory.cellsFrom 0 vs := by
  unfold Memory.below
  rw [List.filter_eq_self]
  intro c hc
  have : c.1 ∈ (Memory.cellsFrom 0 vs).map Prod.fst := List.mem_map_of_mem hc
  rw [Memory.keys_cellsFrom] at this
  simp only [List.mem_range'_1] at this
  simp
  omega

/-- All the phases of GCM_ENC after START (R180): OBUF holds the ciphertext and TAGX the tag of R181, and the cipher has
been asked for the blocks of R179. -/
theorem encryptPhases_spec (P : Params) (op : GcmOperands) (s : State) (hob : s.hidden.obuf = [])
    (ha : op.aad.length = s.regs.aadLen.toNat) (hd : op.data.length = s.regs.dataLen.toNat) : ∃ hid : Hidden,
    encryptPhases P op s =
      { s with
        requests := s.requests ++
          (encryptRequests (deriveY0 (P.cipher op.key 0) op.nonce) (blockCount op.data.length)).map
            fun b => ⟨op.key, b⟩
        hidden := hid } ∧
    hid.obuf = Memory.cellsFrom 0 (gcmEncrypt (P.cipher op.key) op.nonce op.aad op.data).1 ∧
    hid.tagX = (gcmEncrypt (P.cipher op.key) op.nonce op.aad op.data).2 := by
  obtain ⟨x, m0, hs⟩ := sessionStart_eq P op s
  have hlt : op.data.length < 2 ^ 64 := by rw [hd]; exact s.regs.dataLen.isLt
  have hk := keystreamPhase_eq P op.key op.data (sessionStart P op s) (by rw [hs]; exact hob) hlt
  have hst : stagedBytes (keystreamPhase P op.key op.data (sessionStart P op s)) =
      gctr (P.cipher op.key) (deriveY0 (P.cipher op.key 0) op.nonce) op.data := by
    rw [hk, hs]
    simp only [stagedBytes, releasedBytes]
    rw [below_cellsFrom _ _ (by rw [gctr_length, hd])]
    exact Memory.values_cellsFrom _ 0
  obtain ⟨m, hh⟩ := hashPhases_ghash op.aad
    (stagedBytes (keystreamPhase P op.key op.data (sessionStart P op s)))
    (keystreamPhase P op.key op.data (sessionStart P op s))
    (by rw [hk, hs]; exact ha) (by rw [hst, gctr_length, hk, hs]; exact hd)
  have he : encryptPhases P op s = maskTag P op.key (enterPhase .tag (hashPhases op.aad
      (stagedBytes (keystreamPhase P op.key op.data (sessionStart P op s)))
      (keystreamPhase P op.key op.data (sessionStart P op s)))) := rfl
  rw [hh, hst, hk, hs] at he
  refine ⟨(encryptPhases P op s).hidden, ?_, ?_, ?_⟩
  · rw [he]
    simp [maskTag, recordRequest, enterPhase, encryptRequests, List.append_assoc, Function.comp_def]
  · rw [he]
    rfl
  · rw [he]
    rfl

/-- All the phases of GCM_DEC after START (R188): OBUF holds the deciphered data, TAGX the tag over the received
ciphertext, and the cipher has been asked for the blocks of R179. -/
theorem decryptPhases_spec (P : Params) (op : GcmOperands) (s : State) (hob : s.hidden.obuf = [])
    (ha : op.aad.length = s.regs.aadLen.toNat) (hd : op.data.length = s.regs.dataLen.toNat) : ∃ hid : Hidden,
    decryptPhases P op s =
      { s with
        requests := s.requests ++
          (decryptRequests (deriveY0 (P.cipher op.key 0) op.nonce) (blockCount op.data.length)).map
            fun b => ⟨op.key, b⟩
        hidden := hid } ∧
    hid.obuf = Memory.cellsFrom 0
      (gctr (P.cipher op.key) (deriveY0 (P.cipher op.key 0) op.nonce) op.data) ∧
    hid.tagX = gcmTag (P.cipher op.key) op.nonce op.aad op.data := by
  obtain ⟨x, m0, hs⟩ := sessionStart_eq P op s
  have hlt : op.data.length < 2 ^ 64 := by rw [hd]; exact s.regs.dataLen.isLt
  obtain ⟨m, hh⟩ := hashPhases_ghash op.aad op.data (sessionStart P op s) (by rw [hs]; exact ha) (by rw [hs]; exact hd)
  have hk := keystreamPhase_eq P op.key op.data
    (maskTag P op.key (enterPhase .tag (hashPhases op.aad op.data (sessionStart P op s))))
    (by rw [hh, hs]; exact hob) hlt
  have he : decryptPhases P op s = keystreamPhase P op.key op.data
      (maskTag P op.key (enterPhase .tag (hashPhases op.aad op.data (sessionStart P op s)))) := rfl
  rw [hk, hh, hs] at he
  refine ⟨(decryptPhases P op s).hidden, ?_, ?_, ?_⟩
  · rw [he]
    simp [maskTag, recordRequest, enterPhase, decryptRequests, List.append_assoc, Function.comp_def]
  · rw [he]
    rfl
  · rw [he]
    rfl

end Sys2Proof.Machine
end

