-- ==== Sys2Proof/Laws/Status.lean ====
section
/-!
SUPPORT. The fields of the STATUS words that the rules produce, and that no admission check yields AUTH_FAIL.
-/

namespace Sys2Proof.Machine

/-- Every field of an error's STATUS (R25, R216). -/
theorem Status.failed_fields (c : ErrCode) :
    Status.busy (Status.failed c) = false ∧ Status.done (Status.failed c) = true ∧
    Status.err (Status.failed c) = true ∧ Status.authOk (Status.failed c) = false ∧
    Status.errCode (Status.failed c) = c.number ∧ Status.reserved (Status.failed c) = 0 ∧ c.number ≠ 0 ∧
    Status.legal (Status.failed c) = true := by
  cases c <;> decide

/-- Every field of the STATUS of a command that succeeded (R25). -/
theorem Status.succeeded_fields :
    Status.busy Status.succeeded = false ∧ Status.done Status.succeeded = true ∧
    Status.err Status.succeeded = false ∧ Status.authOk Status.succeeded = false ∧
    Status.errCode Status.succeeded = 0 ∧ Status.reserved Status.succeeded = 0 ∧
    Status.legal Status.succeeded = true := by decide

/-- Every field of the STATUS of a GCM_DEC with equal tags (R25, R190). -/
theorem Status.authenticated_fields :
    Status.busy Status.authenticated = false ∧ Status.done Status.authenticated = true ∧
    Status.err Status.authenticated = false ∧ Status.authOk Status.authenticated = true ∧
    Status.errCode Status.authenticated = 0 ∧ Status.reserved Status.authenticated = 0 ∧
    Status.legal Status.authenticated = true := by decide

/-- Code 8 is AUTH_FAIL and no other (R210). -/
theorem ErrCode.number_eq_eight (c : ErrCode) : c.number = 8#4 ↔ c = .authFail := by
  cases c <;> decide

end Sys2Proof.Machine
end

