-- ==== Sys2Proof/Laws/Commands.lean ====
section
/-!
SUPPORT. What each of the three commands that read buffers can do, said once and for every choice of the parameters: an
admission error, a refusal, or a completion; and from that, what any command can do.
-/

namespace Sys2Proof.Machine

/-- A sampled GHASH operand is what the buffers hold below the lengths. -/
theorem sampleGhash_ok (regs : HostRegs) (bufs : InputBufs) (op : GhashOperands)
    (h : sampleGhash regs bufs = .ok op) :
    Memory.readBytes .aad bufs.aad 0 regs.aadLen.toNat = .ok op.aad ∧
    Memory.readBytes .din bufs.din 0 regs.dataLen.toNat = .ok op.data := by
  unfold sampleGhash at h
  split at h
  · cases h
  · next a ha =>
    split at h
    · cases h
    · next d hd => cases h; exact ⟨ha, hd⟩

/-- A sampled session operand is what the buffers hold below the lengths. -/
theorem sampleGcm_ok (regs : HostRegs) (bufs : InputBufs) (op : GcmOperands) (h : sampleGcm regs bufs = .ok op) :
    Memory.readBytes .key bufs.key 0 regs.keyLen.toNat = .ok op.key ∧
    Memory.readBytes .nonce bufs.nonce 0 regs.nonceLen.toNat = .ok op.nonce ∧
    Memory.readBytes .aad bufs.aad 0 regs.aadLen.toNat = .ok op.aad ∧
    Memory.readBytes .din bufs.din 0 regs.dataLen.toNat = .ok op.data := by
  unfold sampleGcm at h
  split at h
  · cases h
  · next k hk =>
    split at h
    · cases h
    · next n hn =>
      split at h
      · cases h
      · next g hg =>
        cases h
        obtain ⟨ha, hd⟩ := sampleGhash_ok regs bufs g hg
        exact ⟨hk, hn, ha, hd⟩

theorem readBytes_length {b : Buf} {m : Memory} {n off : Nat} {vs : List Byte}
    (h : Memory.readBytes b m off n = .ok vs) : vs.length = n :=
  ((Memory.readBytes_ok_iff b m n off vs).mp h).1

/-- A session's operands are what GHASH samples. -/
theorem sampleGhash_of_session {s : State} {op : GhashOperands} (h : GhashSession s op) :
    sampleGhash s.regs s.bufs = .ok op := by
  have h1 := (Memory.readBytes_ok_iff .aad s.bufs.aad s.regs.aadLen.toNat 0 op.aad).mpr
    ⟨h.aadLen, by simpa using h.aad⟩
  have h2 := (Memory.readBytes_ok_iff .din s.bufs.din s.regs.dataLen.toNat 0 op.data).mpr
    ⟨h.dataLen, by simpa using h.data⟩
  simp [sampleGhash, h1, h2]

/-- A session's operands are what GCM_ENC and GCM_DEC sample. -/
theorem sampleGcm_of_session {s : State} {op : GcmOperands} (h : GcmSession s op) :
    sampleGcm s.regs s.bufs = .ok op := by
  have h1 := (Memory.readBytes_ok_iff .aad s.bufs.aad s.regs.aadLen.toNat 0 op.aad).mpr
    ⟨h.aadLen, by simpa using h.aad⟩
  have h2 := (Memory.readBytes_ok_iff .din s.bufs.din s.regs.dataLen.toNat 0 op.data).mpr
    ⟨h.dataLen, by simpa using h.data⟩
  have h3 := (Memory.readBytes_ok_iff .key s.bufs.key s.regs.keyLen.toNat 0 op.key).mpr
    ⟨h.keyLen, by simpa using h.key⟩
  have h4 := (Memory.readBytes_ok_iff .nonce s.bufs.nonce s.regs.nonceLen.toNat 0 op.nonce).mpr
    ⟨h.nonceLen, by simpa using h.nonce⟩
  simp [sampleGcm, sampleGhash, h1, h2, h3, h4]

/-- Admissible lengths pass the checks of GHASH with the default parameters (R137). -/
theorem admitGhash_of_lengths {regs : HostRegs} (ha : regs.aadLen.toNat ≤ 2 ^ 61 - 1)
    (hd : regs.dataLen.toNat ≤ 2 ^ 61 - 1) : admitGhash Config.params regs = none := by
  unfold admitGhash maxBytes
  rw [if_neg (by omega), if_neg (by omega), if_neg (by simp [exceeds, Config.params])]

/-- Admissible lengths pass the checks of GCM_ENC and GCM_DEC with the default parameters (R171, R172). -/
theorem admitGcm_of_lengths {regs : HostRegs} (hk : regs.keyLen.toNat = 32) (hn : 1 ≤ regs.nonceLen.toNat)
    (hn' : regs.nonceLen.toNat ≤ 2 ^ 61 - 1) (ha : regs.aadLen.toNat ≤ 2 ^ 61 - 1)
    (hd : regs.dataLen.toNat ≤ 2 ^ 36 - 32) : admitGcm Config.params regs = none := by
  have hc : admitConfiguration Config.params regs = none := by
    unfold admitConfiguration
    rw [if_neg (by simp [Config.params, hk]), if_neg (by omega)]
  unfold admitGcm
  simp only [hc]
  unfold admitOverflow maxBytes maxBlocks
  rw [if_neg (by omega), if_neg (by omega), if_neg (by omega), if_neg (by omega),
    if_neg (by simp [exceeds, Config.params])]

/-- A session passes the admission checks with the default parameters. -/
theorem admitGcm_of_session {s : State} {op : GcmOperands} (h : GcmSession s op) :
    admitGcm Config.params s.regs = none :=
  admitGcm_of_lengths h.keyLegal h.nonceHeld h.nonceFits h.aadFits h.dataFits

/-- A buffer with an unwritten byte below its length is not read whole (U7). -/
theorem readBytes_of_unwritten {m : Memory} {len : Word64} (b : Buf) (h : HasUnwritten m len) :
    ∃ r, Memory.readBytes b m 0 len.toNat = .error r := by
  obtain ⟨j, hj, hn⟩ := h
  cases hr : Memory.readBytes b m 0 len.toNat with
  | error r => exact ⟨r, rfl⟩
  | ok vs =>
    obtain ⟨hl, hv⟩ := (Memory.readBytes_ok_iff b m len.toNat 0 vs).mp hr
    have := hv j (vs[j]'(by omega)) (List.getElem?_eq_getElem _)
    simp [hn] at this

/-- An operand of GHASH with an unwritten byte is not sampled (U7). -/
theorem sampleGhash_of_unwritten {regs : HostRegs} {bufs : InputBufs}
    (h : HasUnwritten bufs.aad regs.aadLen ∨ HasUnwritten bufs.din regs.dataLen) :
    ∃ r, sampleGhash regs bufs = .error r := by
  cases hs : sampleGhash regs bufs with
  | error r => exact ⟨r, rfl⟩
  | ok op =>
    obtain ⟨h1, h2⟩ := sampleGhash_ok _ _ _ hs
    rcases h with h | h
    · obtain ⟨r, e⟩ := readBytes_of_unwritten .aad h
      rw [h1] at e
      cases e
    · obtain ⟨r, e⟩ := readBytes_of_unwritten .din h
      rw [h2] at e
      cases e

/-- An operand of GCM_ENC or GCM_DEC with an unwritten byte is not sampled (U7). -/
theorem sampleGcm_of_unwritten {regs : HostRegs} {bufs : InputBufs}
    (h : HasUnwritten bufs.key regs.keyLen ∨ HasUnwritten bufs.nonce regs.nonceLen ∨
      HasUnwritten bufs.aad regs.aadLen ∨ HasUnwritten bufs.din regs.dataLen) :
    ∃ r, sampleGcm regs bufs = .error r := by
  cases hs : sampleGcm regs bufs with
  | error r => exact ⟨r, rfl⟩
  | ok op =>
    obtain ⟨h1, h2, h3, h4⟩ := sampleGcm_ok _ _ _ hs
    rcases h with h | h | h | h
    · obtain ⟨r, e⟩ := readBytes_of_unwritten .key h
      rw [h1] at e
      cases e
    · obtain ⟨r, e⟩ := readBytes_of_unwritten .nonce h
      rw [h2] at e
      cases e
    · obtain ⟨r, e⟩ := readBytes_of_unwritten .aad h
      rw [h3] at e
      cases e
    · obtain ⟨r, e⟩ := readBytes_of_unwritten .din h
      rw [h4] at e
      cases e

/-- The error completion, as the state at START sees it. -/
theorem raiseErr_start (c : ErrCode) (w : Word32) (s : State) :
    raiseErr c (start w s) = completed w (Status.failed c) 0 0 0 [] [] s := rfl

/-- Everything GHASH can do (R136, R137, U7). -/
theorem ghashWith_cases (P : Params) (s : State) :
    (∃ c, admitGhash P s.regs = some c ∧
      ghashWith P s = .next (completed (encode .ghash) (Status.failed c) 0 0 0 [] [] s)) ∨
    (admitGhash P s.regs = none ∧ ∃ r, sampleGhash s.regs s.bufs = .error r ∧ ghashWith P s = .refused r) ∨
    (admitGhash P s.regs = none ∧ ∃ op, sampleGhash s.regs s.bufs = .ok op ∧
      ghashWith P s = .next (completed (encode .ghash) Status.succeeded (ghash s.regs.opa op.aad op.data) 0 0 [] [] s)) := by
  cases ha : admitGhash P s.regs with
  | some c => exact .inl ⟨c, rfl, by simp only [ghashWith, ha, raiseErr_start]⟩
  | none =>
    cases hs : sampleGhash s.regs s.bufs with
    | error r => exact .inr (.inl ⟨rfl, r, rfl, by simp only [ghashWith, ha, hs]⟩)
    | ok op =>
      refine .inr (.inr ⟨rfl, op, rfl, ?_⟩)
      obtain ⟨h1, h2⟩ := sampleGhash_ok _ _ _ hs
      obtain ⟨m, hm⟩ := hashPhases_ghash op.aad op.data (loadSubkey (start (encode .ghash) s)) (readBytes_length h1)
        (readBytes_length h2)
      simp only [ghashWith, ha, hs]
      rw [hm]
      rfl

/-- Everything GCM_ENC can do (R171, R172, R180, U7). -/
theorem gcmEncWith_cases (P : Params) (s : State) :
    (∃ c, admitGcm P s.regs = some c ∧
      gcmEncWith P s = .next (completed (encode .gcmEnc) (Status.failed c) 0 0 0 [] [] s)) ∨
    (admitGcm P s.regs = none ∧ ∃ r, sampleGcm s.regs s.bufs = .error r ∧ gcmEncWith P s = .refused r) ∨
    (admitGcm P s.regs = none ∧ ∃ op, sampleGcm s.regs s.bufs = .ok op ∧
      gcmEncWith P s = .next (completed (encode .gcmEnc) Status.succeeded 0
        (gcmEncrypt (P.cipher op.key) op.nonce op.aad op.data).2 s.regs.dataLen
        (Memory.cellsFrom 0 (gcmEncrypt (P.cipher op.key) op.nonce op.aad op.data).1)
        ((encryptRequests (deriveY0 (P.cipher op.key 0) op.nonce) (blockCount op.data.length)).map
          fun b => ⟨op.key, b⟩) s)) := by
  cases ha : admitGcm P s.regs with
  | some c => exact .inl ⟨c, rfl, by simp only [gcmEncWith, ha, raiseErr_start]⟩
  | none =>
    cases hs : sampleGcm s.regs s.bufs with
    | error r => exact .inr (.inl ⟨rfl, r, rfl, by simp only [gcmEncWith, ha, hs]⟩)
    | ok op =>
      refine .inr (.inr ⟨rfl, op, rfl, ?_⟩)
      obtain ⟨-, -, h1, h2⟩ := sampleGcm_ok _ _ _ hs
      obtain ⟨hid, he, ho, ht⟩ := encryptPhases_spec P op (start (encode .gcmEnc) s) rfl (readBytes_length h1)
        (readBytes_length h2)
      simp only [gcmEncWith, ha, hs]
      rw [he]
      simp only [publishEncrypted, releasedBytes, enterPhase, complete]
      rw [ho, ht, below_cellsFrom _ _ (by simp [gcmEncrypt, gctr_length, readBytes_length h2])]
      rfl

/-- Everything GCM_DEC can do (R171, R172, R188, R190, R191, U7). -/
theorem gcmDecWith_cases (P : Params) (s : State) :
    (∃ c, admitGcm P s.regs = some c ∧
      gcmDecWith P s = .next (completed (encode .gcmDec) (Status.failed c) 0 0 0 [] [] s)) ∨
    (admitGcm P s.regs = none ∧ ∃ r, sampleGcm s.regs s.bufs = .error r ∧ gcmDecWith P s = .refused r) ∨
    (admitGcm P s.regs = none ∧ ∃ op, sampleGcm s.regs s.bufs = .ok op ∧
      gcmTag (P.cipher op.key) op.nonce op.aad op.data = s.regs.tagIn ∧
      gcmDecWith P s = .next (completed (encode .gcmDec) Status.authenticated 0 0 s.regs.dataLen
        (Memory.cellsFrom 0 (gctr (P.cipher op.key) (deriveY0 (P.cipher op.key 0) op.nonce) op.data))
        ((decryptRequests (deriveY0 (P.cipher op.key 0) op.nonce) (blockCount op.data.length)).map
          fun b => ⟨op.key, b⟩) s)) ∨
    (admitGcm P s.regs = none ∧ ∃ op, sampleGcm s.regs s.bufs = .ok op ∧
      gcmTag (P.cipher op.key) op.nonce op.aad op.data ≠ s.regs.tagIn ∧
      gcmDecWith P s = .next (completed (encode .gcmDec) (Status.failed .authFail) 0 0 0 []
        ((decryptRequests (deriveY0 (P.cipher op.key 0) op.nonce) (blockCount op.data.length)).map
          fun b => ⟨op.key, b⟩) s)) := by
  cases ha : admitGcm P s.regs with
  | some c => exact .inl ⟨c, rfl, by simp only [gcmDecWith, ha, raiseErr_start]⟩
  | none =>
    cases hs : sampleGcm s.regs s.bufs with
    | error r => exact .inr (.inl ⟨rfl, r, rfl, by simp only [gcmDecWith, ha, hs]⟩)
    | ok op =>
      refine .inr (.inr ?_)
      obtain ⟨-, -, h1, h2⟩ := sampleGcm_ok _ _ _ hs
      obtain ⟨hid, he, ho, ht⟩ := decryptPhases_spec P op (start (encode .gcmDec) s) rfl (readBytes_length h1)
        (readBytes_length h2)
      by_cases heq : gcmTag (P.cipher op.key) op.nonce op.aad op.data = s.regs.tagIn
      · refine .inl ⟨rfl, op, rfl, heq, ?_⟩
        simp only [gcmDecWith, ha, hs]
        rw [he, decideDecryption, if_pos (by simp [tagsEqual, enterPhase, ht, heq])]
        simp only [publishDecrypted, releasedBytes, enterPhase, complete]
        rw [ho, below_cellsFrom _ _ (by simp [gctr_length, readBytes_length h2])]
        rfl
      · refine .inr ⟨rfl, op, rfl, heq, ?_⟩
        simp only [gcmDecWith, ha, hs]
        rw [he, decideDecryption, if_neg]
        · rfl
        · intro hh
          have h0 : hid.tagX ^^^ s.regs.tagIn = 0#128 := by
            simpa [tagsEqual, enterPhase] using hh
          rw [BitVec.xor_eq_zero_iff, ht] at h0
          exact heq h0

/-- No admission check of GHASH is an authentication failure. -/
theorem admitGhash_ne_authFail (P : Params) (regs : HostRegs) : admitGhash P regs ≠ some .authFail := by
  intro h
  unfold admitGhash at h
  repeat' split at h
  all_goals cases h

/-- No admission check of a session is an authentication failure. -/
theorem admitGcm_ne_authFail (P : Params) (regs : HostRegs) : admitGcm P regs ≠ some .authFail := by
  intro h
  unfold admitGcm at h
  split at h
  · next c hc =>
    cases h
    unfold admitConfiguration at hc
    repeat' split at hc
    all_goals cases hc
  · unfold admitOverflow at h
    repeat' split at h
    all_goals cases h

/-- Every way a command reaches a next state: an error completion, a primitive's result, a made ciphertext, or a
released plaintext. -/
theorem exec_next_cases {i : Instr} {s t : State} (h : exec i s = .next t) :
    ∃ st res tag len dout rq, t = completed (encode i) st res tag len dout rq s ∧
    ((∃ c, st = Status.failed c ∧ (c ≠ .authFail → rq = []) ∧ (c = .authFail → i = .gcmDec) ∧ res = 0 ∧ tag = 0 ∧
        len = 0 ∧ dout = []) ∨
      ((i = .gfAdd ∨ i = .gfMul ∨ i = .inc32 ∨ i = .ghash) ∧ st = Status.succeeded ∧ tag = 0 ∧ len = 0 ∧
        dout = [] ∧ rq = []) ∨
      (i = .gcmEnc ∧ st = Status.succeeded ∧ res = 0 ∧ len = s.regs.dataLen ∧
        ∃ c : List Byte, c.length = len.toNat ∧ dout = Memory.cellsFrom 0 c) ∨
      (i = .gcmDec ∧ st = Status.authenticated ∧ res = 0 ∧ tag = 0 ∧ len = s.regs.dataLen ∧
        ∃ c : List Byte, c.length = len.toNat ∧ dout = Memory.cellsFrom 0 c)) := by
  cases i with
  | gfAdd => cases h; exact ⟨_, _, _, _, _, _, rfl, .inr (.inl ⟨by simp, rfl, rfl, rfl, rfl, rfl⟩)⟩
  | gfMul => cases h; exact ⟨_, _, _, _, _, _, rfl, .inr (.inl ⟨by simp, rfl, rfl, rfl, rfl, rfl⟩)⟩
  | inc32 => cases h; exact ⟨_, _, _, _, _, _, rfl, .inr (.inl ⟨by simp, rfl, rfl, rfl, rfl, rfl⟩)⟩
  | ghash =>
    have h : ghashWith Config.params s = .next t := h
    rcases ghashWith_cases Config.params s with ⟨c, hc, e⟩ | ⟨-, r, -, e⟩ | ⟨-, op, -, e⟩ <;> rw [e] at h <;> cases h
    · exact ⟨_, _, _, _, _, _, rfl, .inl ⟨c, rfl, fun _ => rfl,
        fun hh => absurd (hh ▸ hc) (admitGhash_ne_authFail _ _), rfl, rfl, rfl, rfl⟩⟩
    · exact ⟨_, _, _, _, _, _, rfl, .inr (.inl ⟨by simp, rfl, rfl, rfl, rfl, rfl⟩)⟩
  | gcmEnc =>
    have h : gcmEncWith Config.params s = .next t := h
    rcases gcmEncWith_cases Config.params s with ⟨c, hc, e⟩ | ⟨-, r, -, e⟩ | ⟨-, op, hs, e⟩ <;> rw [e] at h <;> cases h
    · exact ⟨_, _, _, _, _, _, rfl, .inl ⟨c, rfl, fun _ => rfl,
        fun hh => absurd (hh ▸ hc) (admitGcm_ne_authFail _ _), rfl, rfl, rfl, rfl⟩⟩
    · obtain ⟨-, -, -, h2⟩ := sampleGcm_ok _ _ _ hs
      exact ⟨_, _, _, _, _, _, rfl, .inr (.inr (.inl ⟨rfl, rfl, rfl, rfl, _,
        by rw [gcmEncrypt, gctr_length, readBytes_length h2], rfl⟩))⟩
  | gcmDec =>
    have h : gcmDecWith Config.params s = .next t := h
    rcases gcmDecWith_cases Config.params s with ⟨c, hc, e⟩ | ⟨-, r, -, e⟩ | ⟨-, op, hs, -, e⟩ | ⟨-, op, hs, -, e⟩ <;>
      rw [e] at h <;> cases h
    · exact ⟨_, _, _, _, _, _, rfl, .inl ⟨c, rfl, fun _ => rfl,
        fun hh => absurd (hh ▸ hc) (admitGcm_ne_authFail _ _), rfl, rfl, rfl, rfl⟩⟩
    · obtain ⟨-, -, -, h2⟩ := sampleGcm_ok _ _ _ hs
      exact ⟨_, _, _, _, _, _, rfl, .inr (.inr (.inr ⟨rfl, rfl, rfl, rfl, rfl, _,
        by rw [gctr_length, readBytes_length h2], rfl⟩))⟩
    · exact ⟨_, _, _, _, _, _, rfl, .inl ⟨_, rfl, fun hh => absurd rfl hh, fun _ => rfl, rfl, rfl, rfl, rfl⟩⟩

end Sys2Proof.Machine
end

