-- ==== Sys2Proof/Laws/Counter.lean ====
section
/-!
SUPPORT. What `inc32` does to each part of a counter block (R150).
-/

namespace Sys2Proof.Machine

theorem inc32_prefix (y : Block) : (inc32 y).extractLsb' 32 96 = y.extractLsb' 32 96 := by
  unfold inc32
  ext i hi
  simp
  rw [BitVec.getLsbD_append]
  simp [hi]

theorem inc32_suffix (y : Block) : (inc32 y).extractLsb' 0 32 = y.extractLsb' 0 32 + 1#32 := by
  unfold inc32
  ext i hi
  simp
  rw [BitVec.getLsbD_append]
  simp [hi, BitVec.getLsbD_eq_getElem]

end Sys2Proof.Machine
end

