-- ==== Sys2Proof/Laws/Field.lean ====
section
/-!
SUPPORT. Field Elements as polynomials over GF(2) (R9): the polynomial of a value, its sums, and multiplication by x
reduced modulo x^128 + x^7 + x^2 + x + 1 (R114).
-/

set_option maxRecDepth 4000

namespace Sys2Proof.Machine

open Polynomial

/-- The reduction polynomial (R1, R114). -/
noncomputable abbrev reductionPoly : (ZMod 2)[X] := X ^ 128 + X ^ 7 + X ^ 2 + X + 1

/-- The polynomial of a Field Element (R9). -/
noncomputable def polyOf (v : Block) : (ZMod 2)[X] :=
  ∑ k ∈ Finset.range 128, if v.getLsbD (127 - k) then X ^ k else 0

theorem reductionPoly_monic : reductionPoly.Monic := by unfold reductionPoly; monicity!

theorem reductionPoly_degree : reductionPoly.degree = 128 := by
  have h : reductionPoly.natDegree = 128 := by unfold reductionPoly; compute_degree!
  rw [degree_eq_natDegree reductionPoly_monic.ne_zero, h]
  rfl

theorem polyOf_coeff (v : Block) (k : ℕ) :
    (polyOf v).coeff k = if k < 128 ∧ v.getLsbD (127 - k) = true then 1 else 0 := by
  unfold polyOf
  rw [finsetSum_coeff]
  simp only [apply_ite (fun q : (ZMod 2)[X] => q.coeff k), coeff_X_pow, coeff_zero]
  by_cases hk : k < 128
  · rw [Finset.sum_eq_single k]
    · simp [hk]
    · intro b _ hne
      split <;> simp [Ne.symm hne]
    · intro h
      simp at h
      omega
  · rw [Finset.sum_eq_zero]
    · simp [hk]
    · intro x hx
      simp at hx
      rw [if_neg (show ¬ k = x by omega)]
      simp

/-- The polynomial a Field Element stands for is the one, and no other. -/
theorem standsFor_iff (v : Block) (p : (ZMod 2)[X]) : StandsFor v p ↔ p = polyOf v := by
  constructor
  · intro h
    ext k
    rw [h k, polyOf_coeff]
  · rintro rfl k
    exact polyOf_coeff v k

theorem polyOf_xor (a b : Block) : polyOf (a ^^^ b) = polyOf a + polyOf b := by
  ext k
  rw [coeff_add, polyOf_coeff, polyOf_coeff, polyOf_coeff, BitVec.getLsbD_xor]
  by_cases hk : k < 128 <;> cases a.getLsbD (127 - k) <;> cases b.getLsbD (127 - k) <;> simp [hk]
  decide

theorem polyOf_zero : polyOf 0 = 0 := by
  ext k
  rw [polyOf_coeff]
  simp

theorem polyOf_injective {a b : Block} (h : polyOf a = polyOf b) : a = b := by
  apply BitVec.eq_of_getLsbD_eq
  intro i hi
  have := congrArg (fun q : (ZMod 2)[X] => q.coeff (127 - i)) h
  simp only [polyOf_coeff] at this
  rw [show 127 - (127 - i) = i by omega] at this
  cases ha : a.getLsbD i <;> cases hb : b.getLsbD i <;> simp [ha, hb] at this ⊢ <;> omega

/-- A Field Element is reduced. -/
theorem polyOf_modByMonic (v : Block) : polyOf v %ₘ reductionPoly = polyOf v := by
  rw [modByMonic_eq_self_iff reductionPoly_monic, reductionPoly_degree]
  refine lt_of_lt_of_le (?_ : _ < ((128 : ℕ) : WithBot ℕ)) le_rfl
  rw [degree_lt_iff_coeff_zero]
  intro m hm
  rw [polyOf_coeff, if_neg]
  omega

/-- `R_CONST` is x^7 + x^2 + x + 1 (R9). -/
theorem polyOf_rConst : polyOf rConst = X ^ 7 + X ^ 2 + X + 1 := by
  ext k
  rw [polyOf_coeff]
  simp only [coeff_add, coeff_X_pow, coeff_X, coeff_one]
  by_cases hk : k < 128
  · revert k
    decide
  · rw [if_neg (by omega), if_neg (by omega), if_neg (by omega), if_neg (by omega), if_neg (by omega)]
    simp

theorem polyOf_mul_X (v : Block) : polyOf v * X = polyOf (v >>> 1) + if v.getLsbD 0 then X ^ 128 else 0 := by
  ext k
  rw [coeff_add, polyOf_coeff, BitVec.getLsbD_ushiftRight]
  cases k with
  | zero =>
    rw [coeff_mul_X_zero]
    simp
    split <;> simp
  | succ k =>
    rw [coeff_mul_X, polyOf_coeff, apply_ite (fun q : (ZMod 2)[X] => q.coeff (k + 1)), coeff_X_pow]
    rcases lt_trichotomy k 127 with h | h | h
    · rw [show 1 + (127 - (k + 1)) = 127 - k by omega]
      simp [show k < 128 by omega, show k + 1 < 128 by omega, show ¬ k = 127 by omega]
    · subst h
      simp
    · simp [show ¬ k < 128 by omega, show ¬ k + 1 < 128 by omega, show ¬ k = 127 by omega]

/-- x^128 reduces to x^7 + x^2 + x + 1 (R114). -/
theorem X_pow_128_modByMonic : (X ^ 128 : (ZMod 2)[X]) %ₘ reductionPoly = X ^ 7 + X ^ 2 + X + 1 := by
  have two : ∀ p : (ZMod 2)[X], p + p = 0 := by
    intro p
    rw [← two_mul, show (2 : (ZMod 2)[X]) = 0 by exact_mod_cast CharP.cast_eq_zero ((ZMod 2)[X]) 2]
    simp
  refine (div_modByMonic_unique (q := 1) _ reductionPoly_monic ⟨?_, ?_⟩).2
  · have := two (X ^ 7 + X ^ 2 + X + 1)
    linear_combination this
  · rw [← polyOf_rConst, ← modByMonic_eq_self_iff reductionPoly_monic]
    exact polyOf_modByMonic _

/-- One step of the running copy is multiplication by x in the field (R112, R114). -/
theorem polyOf_timesX (v : Block) : polyOf (timesX v) = (polyOf v * X) %ₘ reductionPoly := by
  rw [polyOf_mul_X, add_modByMonic, polyOf_modByMonic]
  unfold timesX
  split
  · rw [polyOf_xor, polyOf_rConst, X_pow_128_modByMonic]
  · simp

/-- Reduction inside a product does not show after reduction. -/
theorem modByMonic_mul_modByMonic (p q : (ZMod 2)[X]) :
    ((p %ₘ reductionPoly) * q) %ₘ reductionPoly = (p * q) %ₘ reductionPoly := by
  have h : p = p %ₘ reductionPoly + reductionPoly * (p /ₘ reductionPoly) :=
    (modByMonic_add_div p reductionPoly).symm
  conv_rhs =>
    rw [h, add_mul, add_modByMonic, mul_assoc, mul_comm reductionPoly,
      (modByMonic_eq_zero_iff_dvd reductionPoly_monic).mpr (Dvd.intro_left _ rfl), add_zero]

/-- The last iteration stands outside. -/
theorem mulSteps_succ (b : Block) (n : ℕ) : ∀ m, mulSteps b (n + 1) m = mulStep b (mulSteps b n m) := by
  induction n with
  | zero => intro m; rfl
  | succ n ih => intro m; rw [mulSteps, ih, ← mulSteps]

end Sys2Proof.Machine
end

