-- ==== Sys2Proof/Laws/PerInstr.lean ====
section
/-!
SUPPORT. A law of every command as syntax: its word is a well-formed word of format C, with the opcode of the opcode map
in bits 7:0 and every bit of 31:8 clear (R90, R91).
-/

namespace Sys2Proof.Laws.OpcodeWord

/-- The word of a command is legal, below 2^8, and carries the command's opcode. -/
def Statement (i : Instr) : Prop :=
  (FormatC.ofWord (encode i)).wellFormed = true ∧ (FormatC.ofWord (encode i)).zero = 0 ∧
  (FormatC.ofWord (encode i)).opcode = opcodeOfCommand i ∧ (encode i).toNat < 2 ^ 8 ∧
  commandOfOpcode (opcodeOfCommand i) = some i

theorem gfAdd : Statement .gfAdd := by unfold Statement; decide

theorem gfMul : Statement .gfMul := by unfold Statement; decide

theorem inc32 : Statement .inc32 := by unfold Statement; decide

theorem ghash : Statement .ghash := by unfold Statement; decide

theorem gcmEnc : Statement .gcmEnc := by unfold Statement; decide

theorem gcmDec : Statement .gcmDec := by unfold Statement; decide

end Sys2Proof.Laws.OpcodeWord
end

