-- ==== Sys2Proof/Laws/Sequencer.lean ====
section
/-!
SUPPORT. What one tick of a busy core can do, said once: from a state of the invariant it stays busy with everything but
the hidden state and the requests as before, or completes, or is refused.
-/

namespace Sys2Proof.Machine

theorem successorIn_mem {l : List Phase} {p q : Phase} (h : successorIn l p = some q) : q ∈ l := by
  induction l with
  | nil => simp [successorIn] at h
  | cons a l ih =>
    cases l with
    | nil => simp [successorIn] at h
    | cons b l =>
      rw [successorIn] at h
      split at h
      · cases h
        simp
      · exact List.mem_cons_of_mem _ (ih h)

theorem idle_not_mem_commandPhases (i : Instr) : Phase.idle ∉ commandPhases i := by
  cases i <;> simp [commandPhases]

/-- Moving on to the next phase touches the hidden state alone. -/
theorem advance_next (i : Instr) (s : State) (q : Phase)
    (h : successorIn (commandPhases i) s.hidden.phase = some q) :
    ∃ hid, advance i s = .next { s with hidden := hid } ∧ hid.phase = q ∧ hid.blk = 0 ∧
      hid.obuf = s.hidden.obuf := by
  unfold advance
  rw [h]
  cases q <;> exact ⟨_, rfl, rfl, rfl, rfl⟩

/-- A busy core goes by the phases of its command alone. -/
theorem tick_command {P : Params} {s : State} {i : Instr} (hc : decode s.cmd = .command i)
    (hp : s.hidden.phase ∈ commandPhases i) : tick P s = tickPhase P i s := by
  unfold tick
  rw [hc]
  simp only [List.contains_iff_mem.mpr hp, if_true]

/-- Command `i` is still running in `t`: only the hidden state and the requests differ from `s`. -/
def StillBusy (i : Instr) (s t : State) : Prop :=
  ∃ hid rq, t = { s with hidden := hid, requests := rq } ∧ hid.phase ∈ commandPhases i ∧
    hid.obuf.map Prod.fst = List.range (stagedLen i { s with hidden := hid, requests := rq })

/-- `t` is `s` after a completion update. -/
def JustCompleted (s t : State) : Prop :=
  ∃ st res tag len dout, t = complete st res tag len dout s ∧
    Status.legal st = true ∧ Status.busy st = false ∧ Status.done st = true ∧ st ≠ 0 ∧
    dout.map Prod.fst = List.range len.toNat ∧
    (Status.err st = true → res = 0 ∧ tag = 0 ∧ len = 0 ∧ dout = [])

/-- What a tick of command `i` from `s` may answer. -/
def GoesOn (i : Instr) (s : State) (o : Host.Outcome State Fault Refusal) : Prop :=
  (∃ t, o = .next t ∧ (StillBusy i s t ∨ JustCompleted s t)) ∨ ∃ r, o = .refused r

theorem justCompleted_raiseErr (c : ErrCode) (s : State) : JustCompleted s (raiseErr c s) := by
  obtain ⟨a, b, -, -, -, -, -, d⟩ := Status.failed_fields c
  exact ⟨_, _, _, _, _, rfl, d, a, b, by cases c <;> decide, rfl, fun _ => ⟨rfl, rfl, rfl, rfl⟩⟩

theorem justCompleted_publishRes (v : Block) (s : State) : JustCompleted s (publishRes v s) := by
  obtain ⟨a, b, e, -, -, -, d⟩ := Status.succeeded_fields
  exact ⟨_, _, _, _, _, rfl, d, a, b, by decide, rfl, fun h => by rw [e] at h; cases h⟩

theorem goesOn_advance {i : Instr} {s : State} {hid : Hidden} {rq : List CipherRequest} (q : Phase)
    (h : successorIn (commandPhases i) hid.phase = some q)
    (ho : hid.obuf.map Prod.fst = List.range (stagedLen i { s with hidden := { hid with phase := q, blk := 0 } })) :
    GoesOn i s (advance i { s with hidden := hid, requests := rq }) := by
  obtain ⟨hid', e, e1, e2, e3⟩ := advance_next i { s with hidden := hid, requests := rq } q h
  refine .inl ⟨_, e, .inl ⟨hid', _, rfl, e1 ▸ successorIn_mem h, ?_⟩⟩
  rw [e3, ho]
  congr 1
  simp only [stagedLen, e1, e2]

/-- A buffer that holds exactly the bytes below `k` is all of its part below `n ≥ k`. -/
theorem below_of_extent (m : Memory) (n k : Nat) (h : m.map Prod.fst = List.range k) (hk : k ≤ n) :
    Memory.below m n = m := by
  unfold Memory.below
  rw [List.filter_eq_self]
  intro c hc
  have : c.1 ∈ m.map Prod.fst := List.mem_map_of_mem hc
  rw [h] at this
  simp at this
  simp
  omega

/-- A buffer that holds exactly the bytes below `k` reads on every range below `k`. -/
theorem readBytes_of_extent (b : Buf) (m : Memory) : ∀ n off k : Nat, m.map Prod.fst = List.range k →
    off + n ≤ k → ∃ vs, Memory.readBytes b m off n = .ok vs := by
  intro n
  induction n with
  | zero => intro off k _ _; exact ⟨[], rfl⟩
  | succ n ih =>
    intro off k h1 h2
    obtain ⟨vs, hv⟩ := ih (off + 1) k h1 (by omega)
    obtain ⟨v, hv2⟩ := Memory.exists_read_of_mem m off (by rw [h1]; simp; omega)
    exact ⟨v :: vs, by rw [Memory.readBytes, hv2, hv]⟩

/-- A buffer that holds exactly the bytes below `k` is in canonical form. -/
theorem wf_of_extent (m : Memory) (k : Nat) (h : m.map Prod.fst = List.range k) : Memory.wf m = true := by
  rw [Memory.wf_iff, h]
  exact List.pairwise_lt_range

theorem goesOn_withBytes {i : Instr} {s : State} {b : Except Refusal (List Byte)}
    {go : List Byte → Host.Outcome State Fault Refusal} (h : ∀ bs, b = .ok bs → GoesOn i s (go bs)) :
    GoesOn i s (withBytes b go) := by
  unfold withBytes
  split
  · exact .inr ⟨_, rfl⟩
  · exact h _ rfl

theorem goesOn_withKey {i : Instr} {s : State} {go : List Byte → Host.Outcome State Fault Refusal}
    (h : ∀ key, GoesOn i s (go key)) : GoesOn i s (withKey s go) :=
  goesOn_withBytes fun key _ => h key

/-- The hash phases count their blocks in BLK and touch X and the multiplier beside it alone. -/
theorem foldl_absorbNext_counts (bs : List Block) : ∀ s : State, ∃ x m,
    bs.foldl absorbNext s =
      { s with hidden := { s.hidden with blk := s.hidden.blk + BitVec.ofNat 64 bs.length, x := x, mul := m } } := by
  induction bs with
  | nil => intro s; exact ⟨s.hidden.x, s.hidden.mul, by simp⟩
  | cons b bs ih =>
    intro s
    obtain ⟨x, m, h⟩ := ih (absorbNext s b)
    refine ⟨x, m, ?_⟩
    rw [List.foldl_cons, h]
    have e : s.hidden.blk + 1 + BitVec.ofNat 64 bs.length = s.hidden.blk + BitVec.ofNat 64 (bs.length + 1) := by
      rw [BitVec.ofNat_add, BitVec.add_assoc, BitVec.add_comm 1]
      rfl
    simp only [absorbNext, absorbInto, List.length_cons, e]

/-- KEYSTREAM, one block, keeps OBUF the bytes staged so far. -/
theorem stillBusy_keystreamBlock (P : Params) (i : Instr) (key d : List Byte) (s : State)
    (hp : s.hidden.phase = .keystream) (hm : Phase.keystream ∈ commandPhases i)
    (hlt : s.hidden.blk.toNat < blockCount s.regs.dataLen.toNat)
    (hd : d.length = pieceLen s.regs.dataLen.toNat s.hidden.blk.toNat)
    (hs : s.hidden.obuf.map Prod.fst = List.range (stagedLen i s)) :
    StillBusy i s (keystreamBlock P key d s) := by
  simp only [blockCount] at hlt
  simp only [pieceLen] at hd
  have hb : (s.hidden.blk + 1).toNat = s.hidden.blk.toNat + 1 := by
    have := s.regs.dataLen.isLt
    rw [BitVec.toNat_add]
    simp
    omega
  have e : stagedLen i s = 16 * s.hidden.blk.toNat := by
    cases i <;> simp [commandPhases] at hm <;> simp only [stagedLen, hp] <;> omega
  rw [e] at hs
  refine ⟨_, _, rfl, by show s.hidden.phase ∈ _; rw [hp]; exact hm, ?_⟩
  simp only [recordRequest]
  rw [Memory.writeBytes_append _ _ _ (by intro a ha; rw [hs] at ha; simpa using ha), List.map_append, hs,
    Memory.keys_cellsFrom, xorPiece_length _ _ (by omega), hd, List.range_eq_range', List.range_eq_range']
  have e3 := List.range'_append_1 (s := 0) (m := 16 * s.hidden.blk.toNat)
    (n := min 16 (s.regs.dataLen.toNat - 16 * s.hidden.blk.toNat))
  rw [Nat.zero_add] at e3
  rw [e3]
  congr 1
  cases i <;> simp [commandPhases] at hm <;> simp only [stagedLen, hp, hb] <;> omega

/-- A hash phase that absorbs a block keeps OBUF. -/
theorem stillBusy_absorbNext (i : Instr) (block : Block) (s : State) (hp : s.hidden.phase ∈ commandPhases i)
    (hk : s.hidden.phase ≠ .keystream) (hs : s.hidden.obuf.map Prod.fst = List.range (stagedLen i s)) :
    StillBusy i s (absorbNext s block) := by
  refine ⟨_, s.requests, rfl, hp, ?_⟩
  show s.hidden.obuf.map Prod.fst = _
  rw [hs]
  congr 1
  simp only [stagedLen]
  generalize s.hidden.phase = ph at *
  cases i <;> cases ph <;> simp at *

/-- Everything one tick of a legal command can do. -/
theorem tick_of_command (P : Params) (i : Instr) (s : State) (hb : coreBusy s = true) (hi : Invariant s)
    (hc : decode s.cmd = .command i) : GoesOn i s (tick P s) := by
  have hp := hi.phaseOfCommand hb i hc
  have hs := hi.staged hb i hc
  rw [tick_command hc hp]
  have hash : ∀ (mem : Memory) (b : Buf) (n : Nat), s.hidden.phase ≠ .keystream →
      GoesOn i s (withBytes (readPiece b mem n s.hidden.blk.toNat) fun d => .next (absorbNext s (blockOfBytes d))) :=
    fun mem b n hne => goesOn_withBytes fun d _ => .inl ⟨_, rfl, .inl (stillBusy_absorbNext i _ s hp hne hs)⟩
  generalize hph : s.hidden.phase = ph at hp
  have go : ∀ {hid : Hidden} {rq : List CipherRequest} (q : Phase), hid.phase = ph → hid.obuf = s.hidden.obuf →
      successorIn (commandPhases i) ph = some q →
      stagedLen i s = stagedLen i { s with hidden := { hid with phase := q, blk := 0 } } →
      GoesOn i s (advance i { s with hidden := hid, requests := rq }) := by
    intro hid rq q h1 h2 h3 h4
    exact goesOn_advance q (by rw [h1]; exact h3) (by rw [h2, hs, h4]; rfl)
  unfold tickPhase
  rw [hph]
  cases ph with
  | idle => exact absurd hp (idle_not_mem_commandPhases i)
  | check =>
    cases i with
    | gfAdd => exact go .publish hph rfl rfl (by simp only [stagedLen])
    | inc32 => exact go .publish hph rfl rfl (by simp only [stagedLen])
    | gfMul =>
      exact go (hid := { s.hidden with mul := _ }) (rq := s.requests) .publish hph rfl rfl
        (by simp only [stagedLen])
    | ghash =>
      simp only [tickCheck]
      split
      · exact .inl ⟨_, rfl, .inr (justCompleted_raiseErr _ _)⟩
      · split
        · exact .inr ⟨_, rfl⟩
        · exact go (hid := { s.hidden with h := _ }) (rq := s.requests) .hashA hph rfl rfl
            (by simp only [stagedLen])
    | gcmEnc =>
      simp only [tickCheck]
      split
      · exact .inl ⟨_, rfl, .inr (justCompleted_raiseErr _ _)⟩
      · split
        · exact .inr ⟨_, rfl⟩
        · exact go .subkey hph rfl rfl (by simp only [stagedLen, hph])
    | gcmDec =>
      simp only [tickCheck]
      split
      · exact .inl ⟨_, rfl, .inr (justCompleted_raiseErr _ _)⟩
      · split
        · exact .inr ⟨_, rfl⟩
        · exact go .subkey hph rfl rfl (by simp only [stagedLen, hph])
  | subkey =>
    refine goesOn_withKey fun key => ?_
    cases i <;> simp [commandPhases] at hp
    all_goals
      exact go (hid := { s.hidden with h := P.cipher key 0 }) .deriveY0 hph rfl rfl (by simp only [stagedLen, hph])
  | deriveY0 =>
    refine goesOn_withBytes fun nonce _ => ?_
    obtain ⟨x, m, e⟩ := deriveCounter_eq s nonce
    rw [e]
    cases i <;> simp [commandPhases] at hp
    · exact go (hid := { s.hidden with x := _, mul := _, y0 := _, y := _ }) (rq := s.requests) .keystream hph rfl rfl
        (by simp [stagedLen, hph])
    · exact go (hid := { s.hidden with x := _, mul := _, y0 := _, y := _ }) (rq := s.requests) .hashA hph rfl rfl
        (by simp [stagedLen, hph])
  | keystream =>
    simp only [tickKeystream]
    split
    · next hlt =>
      exact goesOn_withKey fun key => goesOn_withBytes fun d hd =>
        .inl ⟨_, rfl, .inl (stillBusy_keystreamBlock P i key d s hph hp hlt (readBytes_length hd) hs)⟩
    · next hge =>
      simp only [blockCount] at hge
      cases i <;> simp [commandPhases] at hp
      · exact go .hashA hph rfl rfl (by simp only [stagedLen, hph]; omega)
      · exact go .compare hph rfl rfl (by simp only [stagedLen, hph]; omega)
  | hashA =>
    simp only [tickHashA]
    split
    · exact hash _ _ _ (by rw [hph]; simp)
    · cases i <;> simp [commandPhases] at hp
      all_goals exact go .hashC hph rfl rfl (by simp [stagedLen, hph])
  | hashC =>
    simp only [tickHashC]
    split
    · next hlt =>
      simp only [blockCount] at hlt
      split
      · next hi' =>
        subst hi'
        simp only [stagedLen, hph] at hs
        obtain ⟨vs, hv⟩ := readBytes_of_extent .dout s.hidden.obuf
          (pieceLen s.regs.dataLen.toNat s.hidden.blk.toNat) (16 * s.hidden.blk.toNat) _ hs
          (by simp only [pieceLen]; omega)
        have := hash s.hidden.obuf .dout s.regs.dataLen.toNat (by rw [hph]; simp)
        simp only [readPiece, hv, withBytes] at this ⊢
        exact this
      · exact hash _ _ _ (by rw [hph]; simp)
    · cases i <;> simp [commandPhases] at hp
      all_goals exact go .hashL hph rfl rfl (by simp [stagedLen, hph])
  | hashL =>
    cases i <;> simp [commandPhases] at hp
    · exact go (hid := { s.hidden with x := _, mul := _ }) (rq := s.requests) .publish hph rfl rfl
        (by simp [stagedLen])
    · exact go (hid := { s.hidden with x := _, mul := _ }) (rq := s.requests) .tag hph rfl rfl
        (by simp [stagedLen, hph])
    · exact go (hid := { s.hidden with x := _, mul := _ }) (rq := s.requests) .tag hph rfl rfl
        (by simp [stagedLen, hph])
  | tag =>
    refine goesOn_withKey fun key => ?_
    cases i <;> simp [commandPhases] at hp
    · exact go (hid := { s.hidden with eky0 := _, tagX := _ }) .publish hph rfl rfl (by simp [stagedLen, hph])
    · exact go (hid := { s.hidden with eky0 := _, tagX := _ }) .keystream hph rfl rfl (by simp [stagedLen, hph])
  | compare =>
    cases i <;> simp [commandPhases] at hp
    dsimp only
    split
    · exact go .publish hph rfl rfl (by simp [stagedLen, hph])
    · exact .inl ⟨_, rfl, .inr (justCompleted_raiseErr _ _)⟩
  | publish =>
    refine .inl ⟨_, rfl, .inr ?_⟩
    cases i with
    | gfAdd => exact justCompleted_publishRes _ _
    | gfMul => exact justCompleted_publishRes _ _
    | inc32 => exact justCompleted_publishRes _ _
    | ghash => exact justCompleted_publishRes _ _
    | gcmEnc =>
      simp only [stagedLen, hph] at hs
      obtain ⟨a, b, e, -, -, -, d⟩ := Status.succeeded_fields
      refine ⟨_, _, _, _, _, rfl, d, a, b, by decide, ?_, fun h => by rw [e] at h; cases h⟩
      rw [releasedBytes, below_of_extent _ _ _ hs le_rfl]
      exact hs
    | gcmDec =>
      simp only [stagedLen, hph] at hs
      obtain ⟨a, b, e, -, -, -, d⟩ := Status.authenticated_fields
      refine ⟨_, _, _, _, _, rfl, d, a, b, by decide, ?_, fun h => by rw [e] at h; cases h⟩
      rw [releasedBytes, below_of_extent _ _ _ hs le_rfl]
      exact hs

end Sys2Proof.Machine
end

