-- ==== Sys2Proof/Tests/Slice0.lean ====
section
/-!
SUPPORT. Tests. First checks on fixed values: the words of 30_encoding.md and the vectors of 95_test_vectors.md (its
section stands in each docstring). Then one witness or more for every statement of Obligations.lean that has hypotheses:
a concrete state and operands that meet them together.
-/

namespace Sys2Proof.Tests

open Sys2Proof Sys2Proof.Machine

/-! ## Helpers -/

/-- Bytes written as numbers. -/
def bytes (ns : List Nat) : List Byte := ns.map (BitVec.ofNat 8)

/-- The toy cipher of 95_test_vectors.md section 2.1: `E(K, B) = B xor int_be(K[0 .. 16))`. -/
def toyParams : Params where
  cipher        := fun key block => block ^^^ BitVec.ofNat 128 (intBe (key.take 16))
  legalKeyBytes := [32]
  capNonce      := none
  capAad        := none
  capData       := none

/-- The toy cipher beside capacities of 16 bytes. -/
def smallParams : Params := { toyParams with capNonce := some 16, capAad := some 16, capData := some 16 }

/-- The key 00 01 .. 1f. -/
def toyKey : List Byte := (List.range 32).map (BitVec.ofNat 8)

/-- The nonce a0 a1 .. ab. -/
def nonce12 : List Byte := (List.range 12).map fun j => BitVec.ofNat 8 (0xa0 + j)

/-- An idle core with two operands. -/
def primitive (a b : Block) : State :=
  { State.reset with regs := { HostRegs.zero with opa := a, opb := b } }

/-- An idle core with its four length registers. -/
def lengths (key nonce aad data : Nat) : State :=
  { State.reset with
    regs := { HostRegs.zero with
      keyLen := BitVec.ofNat 64 key, nonceLen := BitVec.ofNat 64 nonce, aadLen := BitVec.ofNat 64 aad,
      dataLen := BitVec.ofNat 64 data } }

/-- An idle core with operands loaded, and the received tag. -/
def loaded (op : GcmOperands) (tag : Block) : State :=
  { State.reset with
    regs := { (lengths op.key.length op.nonce.length op.aad.length op.data.length).regs with tagIn := tag }
    bufs :=
      { key := Memory.cellsFrom 0 op.key, nonce := Memory.cellsFrom 0 op.nonce, aad := Memory.cellsFrom 0 op.aad,
        din := Memory.cellsFrom 0 op.data } }

/-- An idle core with the operands of GHASH loaded. -/
def loadedGhash (h : Block) (aad data : List Byte) : State :=
  let s := loaded { key := [], nonce := [], aad := aad, data := data } 0
  { s with regs := { s.regs with opa := h } }

/-- The operands of vector T2. -/
def opT2 : GcmOperands where
  key   := toyKey
  nonce := nonce12
  aad   := bytes [0x61, 0x62, 0x63]
  data  := bytes [0x68, 0x65, 0x6c, 0x6c, 0x6f]

/-- The operands of vector T5: a nonce of 16 bytes, and a counter that wraps. -/
def opT5 : GcmOperands where
  key   := toyKey
  nonce := bytes [0x38, 0x24, 0xe0, 0xe3, 0x59, 0x7e, 0x69, 0x68, 0x7c, 0x3b, 0xb0, 0x6c, 0x2c, 0x62, 0x7f, 0x88]
  aad   := []
  data  := (List.range 33).map fun j => BitVec.ofNat 8 (0x40 + j)

/-- The ciphertext of T2. -/
def cipherT2 : List Byte := bytes [0xc8, 0xc5, 0xcc, 0xcc, 0xcf]

/-- What a test looks at of an outcome. -/
def view {α : Type} (f : State → α) : Host.Outcome State Fault Refusal → Option α
  | .next s => some (f s)
  | .fault _ => none
  | .refused _ => none

/-- The bytes the host reads of DOUT, with the outputs beside it. -/
def outputs (s : State) : Word32 × Block × Block × Nat × List Byte :=
  (s.status, s.res, s.tagOut, s.outLen.toNat, s.dout.map fun cell => cell.2)

/-! ## Well-formedness, one ill-formed word for each check -/

theorem test_wellFormed_zero_field : FormatC.wellFormed { opcode := 0x01#8, zero := 0x000001#24 } = false := by decide

theorem test_wellFormed_opcode : FormatC.wellFormed { opcode := 0x05#8, zero := 0 } = false := by decide

theorem test_wellFormed_legal : FormatC.wellFormed { opcode := 0x11#8, zero := 0 } = true := by decide

theorem test_wellFormed_all_commands :
    [Instr.gfAdd, .gfMul, .inc32, .ghash, .gcmEnc, .gcmDec].all Instr.wellFormed = true := by decide

/-! ## Decoding: the words of R91 bit by bit, 31:8 then 7:0 -/

theorem test_decode_gfAdd : decode (0b000000000000000000000000#24 ++ 0b00000001#8) = .command .gfAdd := by decide

theorem test_decode_gfMul : decode (0b000000000000000000000000#24 ++ 0b00000010#8) = .command .gfMul := by decide

theorem test_decode_inc32 : decode (0b000000000000000000000000#24 ++ 0b00000011#8) = .command .inc32 := by decide

theorem test_decode_ghash : decode (0b000000000000000000000000#24 ++ 0b00000100#8) = .command .ghash := by decide

theorem test_decode_gcmEnc : decode (0b000000000000000000000000#24 ++ 0b00010000#8) = .command .gcmEnc := by decide

theorem test_decode_gcmDec : decode (0b000000000000000000000000#24 ++ 0b00010001#8) = .command .gcmDec := by decide

/-- Section 2.12: words that are no command. -/
theorem test_decode_illegal :
    [0x00000000#32, 0x00000005#32, 0x00000012#32, 0x000000FF#32, 0x00000102#32, 0x80000010#32].all
      (fun w => match decode w with | .illegal _ => true | .command _ => false) = true := by decide

/-- The table gives each row 32 bits. -/
theorem test_decodeTableWord : decodeTableWord 32 0x10 = some .gcmEnc ∧ decodeTableWord 32 0x110 = none := by decide

/-! ## The commands on the spec's vectors -/

/-- R111. -/
theorem test_gfAdd_vector :
    view outputs (exec .gfAdd
      (primitive 0x0388dace60b6a392f328c2b971b2fe78#128 0x66e94bd4ef8a2c3b884cfa59ca342b2e#128)) =
    some (0x2#32, 0x6561911a8f3c8fa97b6438e0bb86d556#128, 0, 0, []) := by decide +kernel

/-- R116, section 1.2: a product of two dense operands. -/
theorem test_gfMul_vector :
    view outputs (exec .gfMul
      (primitive 0x0388dace60b6a392f328c2b971b2fe78#128 0x0123456789abcdeffedcba9876543210#128)) =
    some (0x2#32, 0xba3cd062b236866f648b59a3a9dbdb3a#128, 0, 0, []) := by decide +kernel

/-- Section 1.3: the registers after iteration 2 of the reduction-boundary pair. -/
theorem test_gfMul_trace :
    mulSteps 0x40000000000000000000000000000000#128 3 (mulLoad 0x00000000000000000000000000000001#128) =
    { z := 0xe1000000000000000000000000000000#128, v := 0x38400000000000000000000000000000#128, mi := 3#8 } := by
  decide +kernel

/-- Section 2.4: the wrap leaves the prefix, and bit 32 is never touched. -/
theorem test_inc32_wrap :
    view outputs (exec .inc32 (primitive 0xcafebabefacedbaddecaf888ffffffff#128 0)) =
    some (0x2#32, 0xcafebabefacedbaddecaf88800000000#128, 0, 0, []) := by decide +kernel

theorem test_inc32_plain :
    view outputs (exec .inc32 (primitive 0x00000000000000000000000100000000#128 0)) =
    some (0x2#32, 0x00000000000000000000000100000001#128, 0, 0, []) := by decide +kernel

/-- Section 2.7: one data byte. -/
theorem test_ghash_one_byte :
    view outputs (exec .ghash (loadedGhash 0xacbef20579b4b8ebce889bac8732dad7#128 [] [0x01#8])) =
    some (0x2#32, 0x846f985f8d9afda7082974ccb2171d00#128, 0, 0, []) := by decide +kernel

/-- Section 2.7: associated data of two blocks, the last one partial, and no data. -/
theorem test_ghash_aad :
    view outputs (exec .ghash (loadedGhash 0xacbef20579b4b8ebce889bac8732dad7#128
      (bytes [0xfe, 0xed, 0xfa, 0xce, 0xde, 0xad, 0xbe, 0xef, 0xfe, 0xed, 0xfa, 0xce, 0xde, 0xad, 0xbe, 0xef, 0xab,
        0xad, 0xda, 0xd2]) [])) =
    some (0x2#32, 0x62474a60a6439ecbb861a954300713c4#128, 0, 0, []) := by decide +kernel

/-- Section 2.9, T2. -/
theorem test_gcmEnc_T2 :
    view outputs (gcmEncWith toyParams (loaded opT2 0)) =
    some (0x2#32, 0, 0x3c59cbe57c7fa54cc7c0e09a1707401e#128, 5, bytes [0xc8, 0xc5, 0xcc, 0xcc, 0xcf]) := by
  decide +kernel

/-- Section 2.9, T5: the counter wraps between the first and the second data block. -/
theorem test_gcmEnc_T5 :
    view outputs (gcmEncWith toyParams (loaded opT5 0)) =
    some (0x2#32, 0, 0x4ad2cd8cfd53f715bf450e4b47585c12#128, 33,
      bytes [0x41, 0x63, 0x05, 0x27, 0xc9, 0xeb, 0x8d, 0xaf, 0xbe, 0x9c, 0xfa, 0xd8, 0xbf, 0xbf, 0xbf, 0xbf, 0x51,
        0x73, 0x15, 0x37, 0xd9, 0xfb, 0x9d, 0xbf, 0xae, 0x8c, 0xea, 0xc8, 0x50, 0x50, 0x50, 0x50, 0x61]) := by
  decide +kernel

/-- Section 2.10: the base case. -/
theorem test_gcmDec_base :
    view outputs (gcmDecWith toyParams
      (loaded { opT2 with data := cipherT2 } 0x3c59cbe57c7fa54cc7c0e09a1707401e#128)) =
    some (0xA#32, 0, 0, 5, bytes [0x68, 0x65, 0x6c, 0x6c, 0x6f]) := by decide +kernel

/-- Section 2.10: bit 0 of byte 0 of the ciphertext flipped. -/
theorem test_gcmDec_flipped :
    view outputs (gcmDecWith toyParams
      (loaded { opT2 with data := bytes [0xc9, 0xc5, 0xcc, 0xcc, 0xcf] } 0x3c59cbe57c7fa54cc7c0e09a1707401e#128)) =
    some (0x806#32, 0, 0, 0, []) := by decide +kernel

/-- Section 2.8: a nonce of 11 bytes is hashed. -/
theorem test_deriveY0_hashed :
    deriveY0 0x000102030405060708090a0b0c0d0e0f#128 ((List.range 11).map (BitVec.ofNat 8)) =
    0xbef4b9b5190487518fe01ae43de00b8a#128 := by decide +kernel

/-- The same nonce through the hidden registers: X and Z hold the hash, MI has counted 128 iterations, Y0 and Y are
loaded (R113, R131, R174). -/
theorem test_deriveCounter_hidden :
    let s : State := { State.reset with
      hidden := { Hidden.zero with h := 0x000102030405060708090a0b0c0d0e0f#128, x := 5, phase := .deriveY0 } }
    let t := (deriveCounter ((List.range 11).map (BitVec.ofNat 8)) s).hidden
    t.x = 0xbef4b9b5190487518fe01ae43de00b8a#128 ∧ t.mul.z = t.x ∧ t.mul.mi = 128#8 ∧ t.y0 = t.x ∧ t.y = t.x := by
  decide +kernel

/-- R97, R98: SET of three bytes writes them from index 0 and then the length register. -/
theorem test_script_set :
    Stmt.actions (.set .aad (bytes [0x61, 0x62, 0x63])) =
    [.writeByte .aad 0 0x61#8, .writeByte .aad 1 0x62#8, .writeByte .aad 2 0x63#8, .write64 .aadLen 3#64] := by decide

/-- R47, R92: the word in CMD after reset is no command, and writing it is a START all the same. -/
theorem test_step_illegal_word :
    view (fun t => (t.cmd, t.status)) (step (State.reset.withFetchWord 32 0)) = some (0#32, 0x906#32) := by
  decide +kernel

/-! ## Witnesses of the statements' hypotheses -/

theorem read_cells (vs : List Byte) (j : Nat) : Memory.read (Memory.cellsFrom 0 vs) j = vs[j]? := by
  have := Memory.read_cellsFrom vs 0 j
  rwa [Nat.zero_add] at this

/-- Loaded operands of admissible lengths are a session's. -/
theorem loaded_session (op : GcmOperands) (tag : Block) (hk : op.key.length = 32) (h1 : 1 ≤ op.nonce.length)
    (hn : op.nonce.length ≤ 2 ^ 61 - 1) (ha : op.aad.length ≤ 2 ^ 61 - 1) (hd : op.data.length ≤ 2 ^ 36 - 32) :
    GcmSession (loaded op tag) op := by
  have len : ∀ n : Nat, n ≤ 2 ^ 61 - 1 → (BitVec.ofNat 64 n).toNat = n := by intro n h; simp; omega
  have e1 : (loaded op tag).regs.keyLen.toNat = op.key.length := len _ (by omega)
  have e2 : (loaded op tag).regs.nonceLen.toNat = op.nonce.length := len _ hn
  have e3 : (loaded op tag).regs.aadLen.toNat = op.aad.length := len _ ha
  have e4 : (loaded op tag).regs.dataLen.toNat = op.data.length := len _ (by omega)
  constructor <;> first | omega | skip
  · exact fun j v h => (read_cells op.key j).trans h
  · exact fun j v h => (read_cells op.nonce j).trans h
  · exact fun j v h => (read_cells op.aad j).trans h
  · exact fun j v h => (read_cells op.data j).trans h

theorem witness_session_T2 (tag : Block) : GcmSession (loaded opT2 tag) opT2 :=
  loaded_session opT2 tag (by decide) (by decide) (by decide) (by decide) (by decide)

theorem witness_session_T5 (tag : Block) : GcmSession (loaded opT5 tag) opT5 :=
  loaded_session opT5 tag (by decide) (by decide) (by decide) (by decide) (by decide)

/-- A session without data and associated data: the lengths at their lower ends. -/
theorem witness_session_empty :
    GcmSession (loaded { opT2 with nonce := [0x01#8], aad := [], data := [] } 0)
      { opT2 with nonce := [0x01#8], aad := [], data := [] } :=
  loaded_session _ 0 (by decide) (by decide) (by decide) (by decide) (by decide)

/-- GhashPublishesHash: written operands, and both lengths zero. -/
theorem witness_ghash_session :
    GhashSession (loadedGhash 0xacbef20579b4b8ebce889bac8732dad7#128 (bytes [0x61, 0x62, 0x63]) [0x01#8])
      { aad := bytes [0x61, 0x62, 0x63], data := [0x01#8] } := by
  constructor <;> first | decide | skip
  · exact fun j v h => (read_cells _ j).trans h
  · exact fun j v h => (read_cells _ j).trans h

theorem witness_ghash_empty : (lengths 0 0 0 0).regs.aadLen = 0 ∧ (lengths 0 0 0 0).regs.dataLen = 0 := by decide

/-- StepRunsDecodedCommand, StartClearsOutputsAndHidden and IllegalWordCompletesWithCodeNine: each clause. -/
theorem witness_command_pending :
    ∃ s : State, s.pending = [.write32 .cmd 0x10#32] ∧ decode 0x10#32 = .command .gcmEnc ∧ coreBusy s = false ∧
      s.split = false := ⟨{ State.reset with pending := [.write32 .cmd 0x10#32] }, by decide⟩

theorem witness_command_pending_split :
    ∃ s : State, s.pending = [.write32 .cmd 0x04#32] ∧ decode 0x04#32 = .command .ghash ∧ coreBusy s = false ∧
      s.split = true := ⟨{ State.reset with pending := [.write32 .cmd 0x04#32], split := true }, by decide⟩

theorem witness_command_pending_busy :
    ∃ s : State, s.pending = [.write32 .cmd 0x11#32] ∧ decode 0x11#32 = .command .gcmDec ∧ coreBusy s = true :=
  ⟨{ start 0x01#32 State.reset with pending := [.write32 .cmd 0x11#32] }, by decide⟩

theorem witness_illegal_pending_split :
    ∃ s : State, s.pending = [.write32 .cmd 0x102#32] ∧ coreBusy s = false ∧ s.split = true ∧
      decode 0x102#32 = .illegal .zeroFieldNotClear :=
  ⟨{ State.reset with pending := [.write32 .cmd 0x102#32], split := true }, by decide⟩

theorem witness_illegal_pending :
    ∃ s : State, s.pending = [.write32 .cmd 0x12#32] ∧ coreBusy s = false ∧ s.split = false ∧
      0x12#32 ≠ 0x01#32 ∧ 0x12#32 ≠ 0x02#32 ∧ 0x12#32 ≠ 0x03#32 ∧ 0x12#32 ≠ 0x04#32 ∧ 0x12#32 ≠ 0x10#32 ∧
      0x12#32 ≠ 0x11#32 := ⟨{ State.reset with pending := [.write32 .cmd 0x12#32] }, by decide⟩

/-- FetchWordRunsNext. -/
theorem witness_table_word : decodeTableWord 32 0x11 = some .gcmDec := by decide

/-- GfAddPublishesXor: its three clauses with a hypothesis. -/
theorem witness_gfAdd_clauses :
    (primitive 5 5).regs.opa = (primitive 5 5).regs.opb ∧ (primitive 5 0).regs.opb = 0 ∧
    (primitive 0x0388dace60b6a392f328c2b971b2fe78#128 0x66e94bd4ef8a2c3b884cfa59ca342b2e#128).regs.opa =
      0x0388dace60b6a392f328c2b971b2fe78#128 := by decide

/-- MultiplierIteration at the last iteration. -/
theorem witness_last_iteration : ({ z := 0, v := 1, mi := 127#8 } : Multiplier).mi.toNat < 128 := by decide

/-- MultiplierLoopKeepsReducedProducts: `x` and `x^127` as operands, after the last iteration. -/
theorem witness_loop_operands :
    StandsFor 0x40000000000000000000000000000000#128 Polynomial.X ∧ 128 ≤ 128 := by
  refine ⟨fun k => ?_, le_rfl⟩
  rw [Polynomial.coeff_X]
  by_cases hk : k < 128
  · revert k
    decide
  · rw [if_neg (by omega), if_neg (by omega)]

/-- FieldMultiplicationLaws: a nonzero element. -/
theorem witness_nonzero_element : (1 : Block) ≠ 0 := by decide

/-- CounterBlocksDistinct at the largest session, and a nonce of 12 bytes. -/
theorem witness_largest_session :
    2 ^ 32 - 2 ≤ 2 ^ 32 - 2 ∧ 0 < 2 ^ 32 - 2 ∧ 2 ^ 32 - 2 ≤ 2 ^ 32 - 2 ∧ nonce12.length = 12 := by decide

/-- InitialCounterBlock: both lengths of nonce. -/
theorem witness_nonces : nonce12.length = 12 ∧ opT5.nonce.length ≠ 12 := by decide

/-- BlockBytesAreBigEndian and SegmentPadsOnTheRight: the lengths 0, 16 and 17. -/
theorem witness_block_bytes : (toyKey.take 16).length = 16 ∧ 15 < 16 := by decide

theorem witness_segment_lengths :
    ([] : List Byte).length = 0 ∧ ((toyKey.take 16).length > 0 ∧ (toyKey.take 16).length % 16 = 0) ∧
    (toyKey.take 17).length % 16 ≠ 0 ∧ 1 < ((toyKey.take 17).length + 15) / 16 := by decide

/-- GhashAbsorbsInOrder and GhashIsPolynomialInSubkey. -/
theorem witness_hash_lengths : opT2.aad.length ≤ 2 ^ 61 - 1 ∧ opT2.data.length ≤ 2 ^ 61 - 1 := by decide

/-- GhashAdmissionErrors: each clause at its first failing length. -/
theorem witness_ghash_admission :
    (lengths 0 0 (2 ^ 61) 0).regs.aadLen.toNat > 2 ^ 61 - 1 ∧
    ((lengths 0 0 (2 ^ 61 - 1) (2 ^ 61)).regs.aadLen.toNat ≤ 2 ^ 61 - 1 ∧
      (lengths 0 0 (2 ^ 61 - 1) (2 ^ 61)).regs.dataLen.toNat > 2 ^ 61 - 1) ∧
    ((lengths 0 0 17 16).regs.aadLen.toNat ≤ 2 ^ 61 - 1 ∧ (lengths 0 0 17 16).regs.dataLen.toNat ≤ 2 ^ 61 - 1 ∧
      smallParams.capAad = some 16 ∧ (lengths 0 0 17 16).regs.aadLen.toNat > 16) ∧
    (smallParams.capData = some 16 ∧ (lengths 0 0 16 17).regs.dataLen.toNat > 16) := by decide

/-- GhashPublishesHash and GhashAdmissionErrors: a command that ends in an error, and one that passes the capacities. -/
theorem witness_ghash_outcomes :
    view (fun t => Status.err t.status) (exec .ghash (lengths 0 0 (2 ^ 61) 0)) = some true ∧
    view (fun t => Status.err t.status) (ghashWith smallParams (loadedGhash 3 [0x01#8] (toyKey.take 16))) = some false ∧
    ((loadedGhash 3 [0x01#8] (toyKey.take 16)).regs.aadLen.toNat ≤ 16 ∧
      (loadedGhash 3 [0x01#8] (toyKey.take 16)).regs.dataLen.toNat ≤ 16) := by decide +kernel

/-- GcmAdmissionErrors: each clause at its first failing length. -/
theorem witness_gcm_admission_key :
    (lengths 31 12 0 0).regs.keyLen.toNat ∉ toyParams.legalKeyBytes ∧
    (lengths 32 12 0 0).regs.keyLen.toNat ∈ toyParams.legalKeyBytes := by decide

theorem witness_gcm_admission_nonce :
    (lengths 32 0 0 0).regs.nonceLen = 0 ∧ (lengths 32 (2 ^ 61) 0 0).regs.nonceLen.toNat > 2 ^ 61 - 1 ∧
    (lengths 32 (2 ^ 61 - 1) 0 0).regs.nonceLen ≠ 0 ∧
    (lengths 32 (2 ^ 61 - 1) 0 0).regs.nonceLen.toNat ≤ 2 ^ 61 - 1 := by decide

theorem witness_gcm_admission_lengths :
    (lengths 32 12 (2 ^ 61) 0).regs.aadLen.toNat > 2 ^ 61 - 1 ∧
    ((lengths 32 12 (2 ^ 61 - 1) (2 ^ 61)).regs.aadLen.toNat ≤ 2 ^ 61 - 1 ∧
      (lengths 32 12 (2 ^ 61 - 1) (2 ^ 61)).regs.dataLen.toNat > 2 ^ 61 - 1) ∧
    ((lengths 32 12 0 (2 ^ 36 - 31)).regs.dataLen.toNat ≤ 2 ^ 61 - 1 ∧
      (lengths 32 12 0 (2 ^ 36 - 31)).regs.dataLen.toNat > 2 ^ 36 - 32) := by decide

theorem witness_gcm_admission_capacity :
    (lengths 32 17 17 17).regs.nonceLen.toNat ≤ 2 ^ 61 - 1 ∧ (lengths 32 17 17 17).regs.dataLen.toNat ≤ 2 ^ 36 - 32 ∧
    (smallParams.capNonce = some 16 ∧ (lengths 32 17 16 16).regs.nonceLen.toNat > 16) ∧
    (smallParams.capAad = some 16 ∧ (lengths 32 16 17 16).regs.aadLen.toNat > 16) ∧
    (smallParams.capData = some 16 ∧ (lengths 32 16 16 17).regs.dataLen.toNat > 16) := by decide

/-- GcmAdmissionErrors, GcmEncPublishesCiphertextAndTag, GcmDecReleasesOnEqualTags and GcmDecDiscardsOnUnequalTags: what
passes every check ends in AUTH_FAIL or without an error; and both commands can end in an error. -/
theorem witness_gcm_outcomes :
    view (fun t => t.status) (gcmDecWith smallParams (loaded opT2 7)) = some 0x806#32 ∧
    view (fun t => t.status) (gcmEncWith smallParams (loaded opT2 7)) = some 0x2#32 ∧
    view (fun t => t.status) (exec .gcmEnc State.reset) = some 0x106#32 ∧
    view (fun t => t.status) (exec .gcmDec State.reset) = some 0x106#32 := by decide +kernel

theorem witness_decrypt_clauses :
    let E : Block → Block := fun b => b ^^^ 1#128
    ghash (E 0) [] [] ^^^ E (deriveY0 (E 0) nonce12) = 0xa0a1a2a3a4a5a6a7a8a9aaab00000000#128 ∧
    ghash (E 0) [] [] ^^^ E (deriveY0 (E 0) nonce12) ≠ 0 := by decide +kernel

/-- GctrIsSelfInverse: the last byte of a partial block. -/
theorem witness_gctr_index : 32 < opT5.data.length := by decide

/-- The tag that the unknown cipher gives the operands of T2. -/
noncomputable def tagT2 : Block := gcmTag (Config.params.cipher opT2.key) opT2.nonce opT2.aad opT2.data

/-- GcmDecReleasesOnEqualTags. -/
theorem witness_equal_tags :
    GcmSession (loaded opT2 tagT2) opT2 ∧
    (loaded opT2 tagT2).regs.tagIn =
      ghash (Config.cipher opT2.key 0) opT2.aad opT2.data ^^^
        Config.cipher opT2.key (deriveY0 (Config.cipher opT2.key 0) opT2.nonce) :=
  ⟨witness_session_T2 _, rfl⟩

/-- GcmDecDiscardsOnUnequalTags. -/
theorem witness_unequal_tags :
    GcmSession (loaded opT2 (tagT2 ^^^ 1#128)) opT2 ∧
    (loaded opT2 (tagT2 ^^^ 1#128)).regs.tagIn ≠
      ghash (Config.cipher opT2.key 0) opT2.aad opT2.data ^^^
        Config.cipher opT2.key (deriveY0 (Config.cipher opT2.key 0) opT2.nonce) := by
  refine ⟨witness_session_T2 _, fun h => ?_⟩
  have e : tagT2 ^^^ 1#128 = tagT2 ^^^ 0#128 := by rw [BitVec.xor_zero]; exact h
  rw [BitVec.xor_right_inj] at e
  exact absurd e (by decide)

/-- CipherRequestsOfACommand: its second clause, for a command that computes and for one that ends in CHECK. -/
theorem witness_no_request :
    (∃ t, exec .gfAdd (primitive 1 2) = .next t) ∧
    ∃ t, exec .gcmEnc State.reset = .next t ∧ Status.err t.status = true ∧ Status.errCode t.status ≠ 8#4 :=
  ⟨⟨_, rfl⟩, _, rfl, by decide⟩

theorem witness_no_request_illegal :
    decode 0x102#32 = .illegal .zeroFieldNotClear ∧ ∃ t, runCommand 0x102#32 State.reset = .next t :=
  ⟨by decide, _, rfl⟩

/-- GCM_ENC of T2 completes, under the unknown cipher too. -/
theorem gcmEnc_T2_completes : ∃ t, exec .gcmEnc (loaded opT2 0) = .next t ∧ t.outLen.toNat = 5 := by
  have hs := sampleGcm_of_session (witness_session_T2 0)
  have ha := admitGcm_of_session (witness_session_T2 0)
  rcases gcmEncWith_cases Config.params (loaded opT2 0) with ⟨c, h, -⟩ | ⟨-, r, h, -⟩ | ⟨-, op, -, h⟩
  · rw [ha] at h
    cases h
  · rw [hs] at h
    cases h
  · exact ⟨_, h, show (loaded opT2 0).regs.dataLen.toNat = 5 by decide⟩

/-- DecryptionUndoesEncryption: DOUT copied to DIN. -/
theorem witness_round_trip :
    ∃ (t : State) (din : Memory), GcmSession (loaded opT2 0) opT2 ∧ exec .gcmEnc (loaded opT2 0) = .next t ∧
      ∀ j, j < t.outLen.toNat → Memory.read din j = Memory.read t.dout j := by
  obtain ⟨t, h, -⟩ := gcmEnc_T2_completes
  exact ⟨t, t.dout, witness_session_T2 0, h, fun _ _ => rfl⟩

/-- TamperedTagAlwaysFails: the last bit of the tag flipped. -/
theorem witness_tampered_tag :
    ∃ (t : State) (din : Memory) (tag : Block), GcmSession (loaded opT2 0) opT2 ∧
      exec .gcmEnc (loaded opT2 0) = .next t ∧
      (∀ j, j < t.outLen.toNat → Memory.read din j = Memory.read t.dout j) ∧ tag ≠ t.tagOut := by
  obtain ⟨t, h, -⟩ := gcmEnc_T2_completes
  refine ⟨t, t.dout, t.tagOut ^^^ 1#128, witness_session_T2 0, h, fun _ _ => rfl, fun e => ?_⟩
  have e' : t.tagOut ^^^ 1#128 = t.tagOut ^^^ 0#128 := by rw [BitVec.xor_zero]; exact e
  rw [BitVec.xor_right_inj] at e'
  exact absurd e' (by decide)

/-- FailedDecryptionsLookAlike: two failures, with other keys and other data. -/
theorem witness_failed_decryptions :
    view (fun t => Status.errCode t.status) (gcmDecWith toyParams (loaded opT2 7)) = some 8#4 ∧
    view (fun t => Status.errCode t.status)
      (gcmDecWith smallParams (loaded { opT2 with key := toyKey.reverse, data := [] } 9)) = some 8#4 := by
  decide +kernel

/-- CommandFrame, CompletionPublishesAndClears, SessionsAreIsolated and DoneLineFollowsStatus: a command that completes,
for each group of commands. -/
theorem witness_completions :
    (∃ t, exec .gfAdd (primitive 1 2) = .next t) ∧ (∃ t, exec .gfMul (primitive 1 2) = .next t) ∧
    (∃ t, exec .inc32 (primitive 1 2) = .next t) ∧ (∃ t, exec .ghash (lengths 0 0 0 0) = .next t) ∧
    (∃ t, exec .gcmEnc (loaded opT2 0) = .next t) ∧
    ∃ t, exec .gcmDec State.reset = .next t ∧ Status.err t.status = true := by
  obtain ⟨t, h, -⟩ := gcmEnc_T2_completes
  exact ⟨⟨_, rfl⟩, ⟨_, rfl⟩, ⟨_, rfl⟩, ⟨_, rfl⟩, ⟨t, h⟩, _, rfl, by decide⟩

/-- CompletionPublishesAndClears: GCM_DEC without an error, so with AUTH_OK. -/
theorem witness_authenticated :
    ∃ t, exec .gcmDec (loaded opT2 tagT2) = .next t ∧ Status.err t.status = false ∧
      Status.authOk t.status = true := by
  have hs := sampleGcm_of_session (witness_session_T2 tagT2)
  have ha := admitGcm_of_session (witness_session_T2 tagT2)
  rcases gcmDecWith_cases Config.params (loaded opT2 tagT2) with
    ⟨c, h, -⟩ | ⟨-, r, h, -⟩ | ⟨-, op, -, -, h⟩ | ⟨-, op, h, hne, -⟩
  · rw [ha] at h
    cases h
  · rw [hs] at h
    cases h
  · exact ⟨_, h, Status.authenticated_fields.2.2.1, Status.authenticated_fields.2.2.2.1⟩
  · rw [hs] at h
    cases h
    exact absurd rfl hne

/-- SessionsAreIsolated: two states with the same operands and everything else different. -/
theorem witness_same_operands :
    (loaded opT2 0).regs = { start 0x11#32 (loaded opT2 0) with res := 5, requests := [⟨[], 0⟩] }.regs ∧
    (loaded opT2 0).bufs = { start 0x11#32 (loaded opT2 0) with res := 5, requests := [⟨[], 0⟩] }.bufs ∧
    (loaded opT2 0).status ≠ (start 0x11#32 (loaded opT2 0)).status := by decide +kernel

/-- OnlyListedOperandsMatter: the bytes at and above the length, and OPB, differ. -/
theorem witness_unlisted_operands :
    SameBytes 3 (Memory.cellsFrom 0 (bytes [1, 2, 3])) (Memory.cellsFrom 0 (bytes [1, 2, 3, 4])) ∧
    Memory.cellsFrom 0 (bytes [1, 2, 3]) ≠ Memory.cellsFrom 0 (bytes [1, 2, 3, 4]) ∧
    (primitive 1 2).regs.opa = (primitive 1 3).regs.opa ∧ (primitive 1 2).regs.opb ≠ (primitive 1 3).regs.opb := by
  unfold SameBytes
  decide

/-- UnwrittenOperandIsRefused: the last byte below the length, in each of the two buffers of GHASH. -/
theorem witness_unwritten_ghash :
    (exec .ghash (lengths 0 0 0 1) matches .refused (.unwrittenByte .din 0)) = true ∧
    (exec .ghash (lengths 0 0 1 0) matches .refused (.unwrittenByte .aad 0)) = true ∧
    HasUnwritten (lengths 0 0 0 1).bufs.din (lengths 0 0 0 1).regs.dataLen ∧
    HasUnwritten (lengths 0 0 1 0).bufs.aad (lengths 0 0 1 0).regs.aadLen ∧
    (lengths 0 0 1 1).regs.aadLen.toNat ≤ 2 ^ 61 - 1 ∧ (lengths 0 0 1 1).regs.dataLen.toNat ≤ 2 ^ 61 - 1 :=
  ⟨by decide +kernel, by decide +kernel, ⟨0, by decide⟩, ⟨0, by decide⟩, by decide, by decide⟩

/-- The operands of T2 with a byte of one buffer missing. -/
def lacking (b : Buf) : State :=
  let s := loaded opT2 0
  { s with
    bufs := { s.bufs with
      key := if b = .key then Memory.below s.bufs.key 31 else s.bufs.key
      nonce := if b = .nonce then Memory.below s.bufs.nonce 11 else s.bufs.nonce
      aad := if b = .aad then Memory.below s.bufs.aad 2 else s.bufs.aad
      din := if b = .din then Memory.below s.bufs.din 4 else s.bufs.din } }

/-- UnwrittenOperandIsRefused: the last byte below the length, in each of the four buffers of the session commands. -/
theorem witness_unwritten_session :
    (exec .gcmEnc (lacking .key) matches .refused (.unwrittenByte .key 31)) = true ∧
    (exec .gcmDec (lacking .nonce) matches .refused (.unwrittenByte .nonce 11)) = true ∧
    (exec .gcmEnc (lacking .aad) matches .refused (.unwrittenByte .aad 2)) = true ∧
    (exec .gcmDec (lacking .din) matches .refused (.unwrittenByte .din 4)) = true ∧
    HasUnwritten (lacking .key).bufs.key (lacking .key).regs.keyLen ∧
    HasUnwritten (lacking .nonce).bufs.nonce (lacking .nonce).regs.nonceLen ∧
    HasUnwritten (lacking .aad).bufs.aad (lacking .aad).regs.aadLen ∧
    HasUnwritten (lacking .din).bufs.din (lacking .din).regs.dataLen :=
  ⟨by decide +kernel, by decide +kernel, by decide +kernel, by decide +kernel, ⟨31, by decide⟩, ⟨11, by decide⟩,
    ⟨2, by decide⟩, ⟨4, by decide⟩⟩

/-- UnwrittenOperandIsRefused: the lengths of those states are admissible. -/
theorem witness_unwritten_lengths (b : Buf) :
    (lacking b).regs.keyLen.toNat = 32 ∧ 1 ≤ (lacking b).regs.nonceLen.toNat ∧
    (lacking b).regs.nonceLen.toNat ≤ 2 ^ 61 - 1 ∧ (lacking b).regs.aadLen.toNat ≤ 2 ^ 61 - 1 ∧
    (lacking b).regs.dataLen.toNat ≤ 2 ^ 36 - 32 := by cases b <;> decide

/-- BusyCoreIgnoresTheHost. -/
theorem witness_busy : coreBusy (start 0x10#32 State.reset) = true := by decide

/-- IdleRegisterWrites and BufferWriteReachesOneByte. -/
theorem witness_idle : coreBusy (loaded opT2 0) = false := by decide

/-- BufferWriteReachesOneByte: the buffers that have a capacity, at the last index below it and at it. -/
theorem witness_capacity_reached :
    coreBusy State.reset = false ∧
    (∀ b ∈ [Buf.nonce, .aad, .din], b ≠ .dout ∧ capacityOf smallParams b = some 16) ∧
    view (fun t => Memory.read t.bufs.nonce 15) (hostWriteByte smallParams .nonce 15 7 State.reset) = some (some 7#8) ∧
    (hostWriteByte smallParams .aad 16 7 State.reset matches .fault (.indexOutOfRange .aad 16)) = true := by decide

/-- HostReads: an input buffer, DOUT at its end, and DOUT below it on an idle core and on a busy one. -/
theorem witness_reads :
    let s : State := { State.reset with outLen := 1, dout := [(0, 0x7f#8)] }
    Buf.key ≠ Buf.dout ∧ coreBusy s = false ∧ 0 < s.outLen.toNat ∧ Memory.read s.dout 0 = some 0x7f#8 ∧
    s.outLen.toNat ≤ 1 ∧ coreBusy { s with status := Status.executing } = true ∧
    view (fun t => t.replies) (step { s with pending := [.readByte .dout 0] }) = some [.byte .dout 0 0x7f#8] := by decide

/-- WaitEndsWhenDone: done, idle after reset, and busy. -/
theorem witness_wait :
    (∃ s : State, s.pending = [.wait] ∧ coreBusy s = false ∧ Status.done s.status = true) ∧
    (∃ s : State, s.pending = [.wait] ∧ coreBusy s = false ∧ Status.done s.status = false) ∧
    ∃ s : State, s.pending = [.wait] ∧ coreBusy s = true :=
  ⟨⟨{ State.reset with pending := [.wait], status := Status.succeeded }, by decide⟩,
    ⟨{ State.reset with pending := [.wait] }, by decide⟩,
    ⟨{ start 0x01#32 State.reset with pending := [.wait] }, by decide⟩⟩

/-- WaitEndsWhenDone: a pause and an empty list, each of an idle core and of a busy one. -/
theorem witness_pause :
    ∀ acts ∈ [[HostAction.pause], []],
      coreBusy { State.reset with pending := acts } = false ∧
      coreBusy { start 0x01#32 State.reset with pending := acts } = true := by decide

/-- TicksRefineExec: a command that completes after two ticks, and one that is refused. -/
theorem witness_ticks :
    view outputs (ticks Config.params 2 (start (encode .inc32) (primitive 1 0))) = some (0x2#32, 2, 0, 0, []) ∧
    (exec .ghash (lengths 0 0 0 1) matches .refused _) = true := by decide +kernel

/-- GF_ADD just started, in CHECK. -/
def inCheck : State := start (encode .gfAdd) (primitive 1 2)

/-- GF_ADD about to publish. -/
def inPublish : State := enterPhase .publish inCheck

/-- A busy state in a phase of GF_ADD meets the invariant. -/
theorem busy_gfAdd_invariant (s : State) (hs : s = inCheck ∨ s = inPublish) : Invariant s := by
  have dc : decode s.cmd = .command .gfAdd := by rcases hs with rfl | rfl <;> decide
  constructor
  · rcases hs with rfl | rfl <;> decide
  · rcases hs with rfl | rfl <;> decide
  · rcases hs with rfl | rfl <;> decide
  · intro h
    exact absurd h (by rcases hs with rfl | rfl <;> decide)
  · intro _
    unfold outputsBlank
    rcases hs with rfl | rfl <;> decide
  · rcases hs with rfl | rfl <;> decide
  · intro _
    unfold outputsBlank
    rcases hs with rfl | rfl <;> decide
  · intro _ why h
    rw [dc] at h
    cases h
  · intro _ i h
    rw [dc] at h
    cases h
    rcases hs with rfl | rfl <;> decide
  · intro _ i h
    rw [dc] at h
    cases h
    rcases hs with rfl | rfl <;> decide

/-- NoPartialOutput: a tick that stays busy and one that completes. -/
theorem witness_tick_busy :
    Invariant inCheck ∧ coreBusy inCheck = true ∧ ∃ t, tick Config.params inCheck = .next t :=
  ⟨busy_gfAdd_invariant _ (.inl rfl), by decide, _, rfl⟩

theorem witness_tick_completes :
    Invariant inPublish ∧ coreBusy inPublish = true ∧ ∃ t, tick Config.params inPublish = .next t :=
  ⟨busy_gfAdd_invariant _ (.inr rfl), by decide, _, rfl⟩

/-- StepKeepsInvariant, StepNeverFaults and StatusIsIdleBusyOrDone. -/
theorem witness_invariant_step : Invariant inCheck ∧ ∃ t, step inCheck = .next t :=
  ⟨busy_gfAdd_invariant _ (.inl rfl), _, rfl⟩

end Sys2Proof.Tests
end

section
/-!
PROOFS. TicksRefineExec: a run of busy ticks, the rules by which it is put together, one for each kind of phase, and the
three commands that read buffers phase by phase.
-/

namespace Sys2Proof.Machine

variable {P : Params} {i : Instr} {s0 s u : State} {o : Host.Outcome State Fault Refusal} {p q : Phase}

/-! ## Runs of ticks -/

/-- The ticks from `s` end in `o`, and the core is busy before every one of them. -/
def Runs (P : Params) (s : State) (o : Host.Outcome State Fault Refusal) : Prop :=
  ∃ n, ticks P n s = o ∧ ∀ m, m < n → ∃ u, ticks P m s = .next u ∧ coreBusy u = true

theorem Runs.of_tick (hb : coreBusy s = true) : Runs P s (tick P s) := by
  refine ⟨1, ?_, fun m hm => ⟨s, ?_, hb⟩⟩
  · cases h : tick P s <;> simp [ticks, h]
  · rw [Nat.lt_one_iff.mp hm, ticks]

theorem Runs.head (hb : coreBusy s = true) (ht : tick P s = .next u) (hr : Runs P u o) : Runs P s o := by
  obtain ⟨n, hn, hbusy⟩ := hr
  refine ⟨n + 1, by simpa only [ticks, ht] using hn, fun m hm => ?_⟩
  cases m with
  | zero => exact ⟨s, rfl, hb⟩
  | succ m => simpa only [ticks, ht] using hbusy m (Nat.lt_of_succ_lt_succ hm)

/-- A phase over `n` blocks, one tick each: `f u k` is what block `k` makes of `u`, and `I k` holds when `k` blocks are
done. -/
theorem Runs.blocks {I : Nat → State → Prop} {f : State → Nat → State} {n : Nat} (h0 : I 0 s)
    (hI : ∀ k, k < n → ∀ u, I k u → coreBusy u = true ∧ tick P u = .next (f u k) ∧ I (k + 1) (f u k))
    (hr : I n ((List.range n).foldl f s) → Runs P ((List.range n).foldl f s) o) : Runs P s o := by
  induction n with
  | zero => exact hr h0
  | succ n ih =>
    refine ih (fun k hk => hI k (Nat.lt_succ_of_lt hk)) fun hn => ?_
    obtain ⟨hb, ht, hn'⟩ := hI n (Nat.lt_succ_self n) _ hn
    rw [List.range_succ, List.foldl_append] at hr
    exact .head hb ht (hr hn')

/-! ## A command that runs -/

theorem decode_encode (i : Instr) : decode (encode i) = .command i := by
  cases i <;> decide

/-- In `s` the core is busy with command `i`, on the registers and input buffers of `s0`, the state it was started in. -/
def Running (i : Instr) (s0 s : State) : Prop :=
  s.cmd = encode i ∧ s.status = Status.executing ∧ s.regs = s0.regs ∧ s.bufs = s0.bufs

theorem running_start (i : Instr) (s : State) : Running i s (start (encode i) s) := ⟨rfl, rfl, rfl, rfl⟩

theorem Running.cmd_eq (h : Running i s0 s) : s.cmd = encode i := h.1

theorem Running.regs_eq (h : Running i s0 s) : s.regs = s0.regs := h.2.2.1

theorem Running.bufs_eq (h : Running i s0 s) : s.bufs = s0.bufs := h.2.2.2

theorem Running.busy (h : Running i s0 s) : coreBusy s = true := by
  obtain ⟨-, hst, -, -⟩ := h
  rw [coreBusy, hst]
  decide

theorem Running.tick_eq (h : Running i s0 s) (hm : s.hidden.phase ∈ commandPhases i) :
    tick P s = tickPhase P i s :=
  tick_command (by rw [h.cmd_eq, decode_encode]) hm

/-! What keeps a command running: every update but a completion. -/

@[simp] theorem running_enterPhase : Running i s0 (enterPhase p s) ↔ Running i s0 s := .rfl
@[simp] theorem running_enterHashA : Running i s0 (enterHashA s) ↔ Running i s0 s := .rfl
@[simp] theorem running_loadSubkey : Running i s0 (loadSubkey s) ↔ Running i s0 s := .rfl
@[simp] theorem running_runMultiplier (a b : Block) : Running i s0 (runMultiplier a b s) ↔ Running i s0 s := .rfl
@[simp] theorem running_absorbNext (b : Block) : Running i s0 (absorbNext s b) ↔ Running i s0 s := .rfl
@[simp] theorem running_deriveSubkey (k : List Byte) : Running i s0 (deriveSubkey P k s) ↔ Running i s0 s := .rfl
@[simp] theorem running_maskTag (k : List Byte) : Running i s0 (maskTag P k s) ↔ Running i s0 s := .rfl
@[simp] theorem running_keystreamBlock (k d : List Byte) :
    Running i s0 (keystreamBlock P k d s) ↔ Running i s0 s := .rfl
@[simp] theorem running_deriveCounter (n : List Byte) : Running i s0 (deriveCounter n s) ↔ Running i s0 s := by
  simp [Running]

@[simp] theorem running_sessionStart (op : GcmOperands) : Running i s0 (sessionStart P op s) ↔ Running i s0 s := by
  simp [sessionStart]

@[simp] theorem running_hashPhases (a c : List Byte) : Running i s0 (hashPhases a c s) ↔ Running i s0 s := by
  obtain ⟨m, h⟩ := hashPhases_eq a c s
  rw [h]
  rfl

@[simp] theorem running_keystreamPhase (k d : List Byte) :
    Running i s0 (keystreamPhase P k d s) ↔ Running i s0 s := by
  have hf : ∀ (l : List Nat) (t : State),
      Running i s0 (l.foldl (fun u n => keystreamBlock P k (chunk d n) u) t) ↔ Running i s0 t := by
    intro l
    induction l with
    | nil => exact fun _ => .rfl
    | cons n l ih => exact fun t => (ih _).trans (running_keystreamBlock k (chunk d n))
  exact hf _ _

/-! ## From phase to phase -/

/-- The entry of a phase, as `advance` makes it: HASH_A also loads its registers (R180, R188). -/
def enter (p : Phase) (s : State) : State := if p = .hashA then enterHashA s else enterPhase p s

@[simp] theorem running_enter : Running i s0 (enter p s) ↔ Running i s0 s := by
  unfold enter
  split
  · exact running_enterHashA
  · exact running_enterPhase

theorem advance_eq_enter (h : successorIn (commandPhases i) s.hidden.phase = some q) :
    advance i s = .next (enter q s) := by
  rw [advance, h]
  cases q <;> rfl

theorem mem_of_successorIn {l : List Phase} (h : successorIn l p = some q) : p ∈ l := by
  induction l with
  | nil => simp [successorIn] at h
  | cons a l ih =>
    cases l with
    | nil => simp [successorIn] at h
    | cons b l =>
      rw [successorIn] at h
      split at h
      · next hap => simp [hap]
      · exact List.mem_cons_of_mem _ (ih h)

/-- A tick that leaves its phase `p` for the next one, `q`. -/
theorem Running.runs_advance (t : State) (h : Running i s0 s) (hp : s.hidden.phase = p)
    (hq : successorIn (commandPhases i) p = some q) (ht : tickPhase P i s = advance i t)
    (htp : t.hidden.phase = p) (hr : Runs P (enter q t) o) : Runs P s o := by
  refine .head h.busy ?_ hr
  rw [h.tick_eq (hp ▸ mem_of_successorIn hq), ht, advance_eq_enter (htp ▸ hq)]

/-- A tick that ends the command. -/
theorem Running.runs_last (h : Running i s0 s) (hp : s.hidden.phase = p) (hm : p ∈ commandPhases i)
    (ht : tickPhase P i s = o) : Runs P s o := by
  rw [← ht, ← h.tick_eq (hp ▸ hm)]
  exact .of_tick h.busy

/-! ## The phases over blocks -/

/-- Command `i` is in phase `p` with `k` blocks done. -/
def InBlock (i : Instr) (s0 : State) (p : Phase) (k : Nat) (s : State) : Prop :=
  Running i s0 s ∧ s.hidden.phase = p ∧ s.hidden.blk.toNat = k

theorem inBlock_enter (h : Running i s0 s) : InBlock i s0 p 0 (enter p s) := by
  refine ⟨running_enter.mpr h, ?_, ?_⟩ <;> unfold enter <;> split <;> simp [*]

/-- A phase that takes one tick for each of `n` blocks and one to go on. `J` is what the phase keeps beside its block
count. -/
theorem runs_blockPhase {f : State → Nat → State} {n : Nat} {J : State → Prop}
    (hq : successorIn (commandPhases i) p = some q) (h : InBlock i s0 p 0 s) (hJ : J s)
    (hblock : ∀ k, k < n → ∀ u, InBlock i s0 p k u → J u →
      tickPhase P i u = .next (f u k) ∧ InBlock i s0 p (k + 1) (f u k) ∧ J (f u k))
    (hleave : ∀ u, InBlock i s0 p n u → tickPhase P i u = advance i u)
    (hr : Runs P (enter q ((List.range n).foldl f s)) o) : Runs P s o := by
  refine Runs.blocks (I := fun k u => InBlock i s0 p k u ∧ J u) (f := f) (n := n) ⟨h, hJ⟩ ?_ ?_
  · rintro k hk u ⟨hu, hJu⟩
    obtain ⟨ht, hnext⟩ := hblock k hk u hu hJu
    obtain ⟨hrun, hp, -⟩ := hu
    exact ⟨hrun.busy, by rw [hrun.tick_eq (hp ▸ mem_of_successorIn hq), ht], hnext⟩
  · rintro ⟨⟨hrun, hp, hb⟩, -⟩
    exact hrun.runs_advance _ hp hq (hleave _ ⟨hrun, hp, hb⟩) hp hr

/-- One more block, counted in BLK, which does not wrap: the length of a buffer is a 64-bit number. -/
theorem InBlock.succ {k : Nat} {n : Word64} (h : InBlock i s0 p k s) (hk : k < blockCount n.toNat)
    (hu : Running i s0 u) (hp : u.hidden.phase = s.hidden.phase) (hb : u.hidden.blk = s.hidden.blk + 1) :
    InBlock i s0 p (k + 1) u := by
  obtain ⟨-, hsp, hsb⟩ := h
  refine ⟨hu, hp.trans hsp, ?_⟩
  have := n.isLt
  simp only [blockCount] at hk
  rw [hb, BitVec.toNat_add, hsb]
  exact Nat.mod_eq_of_lt (by simp; omega)

theorem InBlock.running {k : Nat} (h : InBlock i s0 p k s) : Running i s0 s := h.1

theorem InBlock.absorbNext {k : Nat} {n : Word64} (h : InBlock i s0 p k s) (hk : k < blockCount n.toNat)
    (b : Block) : InBlock i s0 p (k + 1) (absorbNext s b) :=
  h.succ hk ((running_absorbNext b).mpr h.running) rfl rfl

theorem InBlock.keystreamBlock {k : Nat} {n : Word64} (h : InBlock i s0 p k s) (hk : k < blockCount n.toNat)
    (key d : List Byte) : InBlock i s0 p (k + 1) (keystreamBlock P key d s) :=
  h.succ hk ((running_keystreamBlock key d).mpr h.running) rfl rfl

/-! HASH_A, HASH_C and KEYSTREAM, and the hash phases together. -/

theorem foldl_segmentBlocks (c : List Byte) (s : State) :
    (segmentBlocks c).foldl absorbNext s =
      (List.range (blockCount c.length)).foldl (fun u k => absorbNext u (blockOfBytes (chunk c k))) s := by
  rw [segmentBlocks, List.foldl_map]

theorem runs_hashA {a : List Byte} (h : Running i s0 s) (hq : successorIn (commandPhases i) .hashA = some q)
    (ha : Memory.readBytes .aad s0.bufs.aad 0 s0.regs.aadLen.toNat = .ok a)
    (hr : Runs P (enter q ((segmentBlocks a).foldl absorbNext (enter .hashA s))) o) :
    Runs P (enter .hashA s) o := by
  rw [foldl_segmentBlocks, readBytes_length ha] at hr
  refine runs_blockPhase (J := fun _ => True) hq (inBlock_enter h) trivial ?_ ?_ hr
  · rintro k hk u hu -
    refine ⟨?_, hu.absorbNext hk _, trivial⟩
    obtain ⟨h, hp, hb⟩ := hu
    simp only [tickPhase, hp, tickHashA, h.regs_eq, h.bufs_eq, hb, if_pos hk, readPiece_ok _ _ _ _ ha k hk, withBytes]
  · rintro u ⟨h, hp, hb⟩
    simp only [tickPhase, hp, tickHashA, h.regs_eq, hb, lt_irrefl, if_false]

/-- The buffer HASH_C takes its blocks from: OBUF for GCM_ENC, DIN for GHASH and GCM_DEC (R136, R180, R188). -/
def hashSource (i : Instr) (s : State) : Buf × Memory :=
  if i = .gcmEnc then (.dout, s.hidden.obuf) else (.din, s.bufs.din)

theorem tickHashC_block {d : List Byte} (hlt : s.hidden.blk.toNat < blockCount s.regs.dataLen.toNat)
    (hd : readPiece (hashSource i s).1 (hashSource i s).2 s.regs.dataLen.toNat s.hidden.blk.toNat = .ok d) :
    tickHashC i s = .next (absorbNext s (blockOfBytes d)) := by
  unfold hashSource at hd
  rw [tickHashC, if_pos hlt]
  split at hd <;> simp only [*, if_true, if_false, withBytes]

theorem runs_hashC {c : List Byte} (h : Running i s0 s) (hq : successorIn (commandPhases i) .hashC = some q)
    (hc : Memory.readBytes (hashSource i s).1 (hashSource i s).2 0 s0.regs.dataLen.toNat = .ok c)
    (hr : Runs P (enter q ((segmentBlocks c).foldl absorbNext (enter .hashC s))) o) :
    Runs P (enter .hashC s) o := by
  rw [foldl_segmentBlocks, readBytes_length hc] at hr
  refine runs_blockPhase (J := fun u => hashSource i u = hashSource i s) hq (inBlock_enter h) rfl ?_ ?_ hr
  · rintro k hk u hu hsrc
    refine ⟨?_, hu.absorbNext hk _, hsrc⟩
    obtain ⟨h, hp, hb⟩ := hu
    rw [tickPhase, hp]
    exact tickHashC_block (by rwa [h.regs_eq, hb]) (by rw [hsrc, h.regs_eq, hb, readPiece_ok _ _ _ _ hc k hk])
  · rintro u ⟨h, hp, hb⟩
    simp only [tickPhase, hp, tickHashC, h.regs_eq, hb, lt_irrefl, if_false]

theorem runs_keystream {key d : List Byte} (h : Running i s0 s)
    (hq : successorIn (commandPhases i) .keystream = some q)
    (hkey : Memory.readBytes .key s0.bufs.key 0 s0.regs.keyLen.toNat = .ok key)
    (hd : Memory.readBytes .din s0.bufs.din 0 s0.regs.dataLen.toNat = .ok d)
    (hr : Runs P (enter q (keystreamPhase P key d s)) o) : Runs P (enter .keystream s) o := by
  rw [keystreamPhase, readBytes_length hd] at hr
  refine runs_blockPhase (J := fun _ => True) hq (inBlock_enter h) trivial ?_ ?_ hr
  · rintro k hk u hu -
    refine ⟨?_, hu.keystreamBlock hk _ _, trivial⟩
    obtain ⟨h, hp, hb⟩ := hu
    simp only [tickPhase, hp, tickKeystream, h.regs_eq, h.bufs_eq, hb, if_pos hk, withKey, hkey,
      readPiece_ok _ _ _ _ hd k hk, withBytes]
  · rintro u ⟨h, hp, hb⟩
    simp only [tickPhase, hp, tickKeystream, h.regs_eq, hb, lt_irrefl, if_false]

/-- HASH_A, HASH_C and HASH_L, from the entry of the first to the entry of the phase behind the last. -/
theorem runs_hashPhases {a c : List Byte} (h : Running i s0 s)
    (hA : successorIn (commandPhases i) .hashA = some .hashC)
    (hC : successorIn (commandPhases i) .hashC = some .hashL)
    (hL : successorIn (commandPhases i) .hashL = some q)
    (ha : Memory.readBytes .aad s0.bufs.aad 0 s0.regs.aadLen.toNat = .ok a)
    (hc : Memory.readBytes (hashSource i s).1 (hashSource i s).2 0 s0.regs.dataLen.toNat = .ok c)
    (hr : Runs P (enter q (hashPhases a c s)) o) : Runs P (enter .hashA s) o := by
  refine runs_hashA h hA ha ?_
  obtain ⟨b, m, hb⟩ := foldl_absorbNext (segmentBlocks a) (enter .hashA s)
  have hrun : Running i s0 ((segmentBlocks a).foldl absorbNext (enter .hashA s)) := by rw [hb]; exact h
  refine runs_hashC hrun hC (by rw [hb]; exact hc) ?_
  obtain ⟨b', m', hb'⟩ :=
    foldl_absorbNext (segmentBlocks c) (enter .hashC ((segmentBlocks a).foldl absorbNext (enter .hashA s)))
  refine Running.runs_advance (hashPhases a c s) (i := i) (s0 := s0) ?_ rfl hL rfl rfl hr
  rw [hb']
  exact hrun

/-! ## The commands -/

/-- PUBLISH is the last tick of a command. -/
theorem runs_publish (h : Running i s0 s) : Runs P (enter .publish s) (.next (tickPublish i (enter .publish s))) :=
  Running.runs_last (p := .publish) (running_enter.mpr h) rfl (by cases i <;> decide) rfl

/-- CHECK is the last tick of a command that it completes with an error or refuses. -/
theorem runs_check (ht : tickCheck P i (start (encode i) s) = o) : Runs P (start (encode i) s) o :=
  (running_start i s).runs_last (p := .check) rfl (by cases i <;> decide) ht

/-- GF_ADD, GF_MUL and INC32: CHECK, which leaves the state at `t`, and PUBLISH. -/
theorem runs_primitive (t : State) (hq : successorIn (commandPhases i) .check = some .publish)
    (ht : tickCheck P i (start (encode i) s) = advance i t) (hrun : Running i s t) (hp : t.hidden.phase = .check) :
    Runs P (start (encode i) s) (.next (tickPublish i (enter .publish t))) :=
  (running_start i s).runs_advance t rfl hq ht hp (runs_publish hrun)

theorem runs_ghash (P : Params) (s : State) : Runs P (start (encode .ghash) s) (ghashWith P s) := by
  have h0 := running_start .ghash s
  cases hadmit : admitGhash P s.regs with
  | some code => exact runs_check (by simp [tickCheck, ghashWith, hadmit])
  | none =>
    cases hop : sampleGhash s.regs s.bufs with
    | error r => exact runs_check (by simp [tickCheck, ghashWith, hadmit, hop])
    | ok op =>
      obtain ⟨ha, hd⟩ := sampleGhash_ok _ _ _ hop
      have hexec : ghashWith P s = .next (tickPublish .ghash (enter .publish
          (hashPhases op.aad op.data (loadSubkey (start (encode .ghash) s))))) := by
        simp only [ghashWith, hadmit, hop]
        rfl
      rw [hexec]
      refine h0.runs_advance (loadSubkey (start (encode .ghash) s)) rfl rfl ?_ rfl ?_
      · simp [tickPhase, tickCheck, hadmit, hop]
      · have hload := running_loadSubkey.mpr h0
        exact runs_hashPhases hload rfl rfl rfl ha hd (runs_publish ((running_hashPhases _ _).mpr hload))

theorem sessionStart_phase (P : Params) (op : GcmOperands) (s : State) :
    (sessionStart P op s).hidden.phase = .deriveY0 := by
  obtain ⟨x, m, hs⟩ := sessionStart_eq P op s
  rw [hs]

theorem sessionStart_obuf (P : Params) (op : GcmOperands) (s : State) :
    (sessionStart P op s).hidden.obuf = s.hidden.obuf := by
  obtain ⟨x, m, hs⟩ := sessionStart_eq P op s
  rw [hs]

/-- SUBKEY and DERIVE_Y0, behind the CHECK of a command that goes on from it. -/
theorem runs_sessionStart {op : GcmOperands}
    (hcheck : tickCheck P i (start (encode i) s) = advance i (start (encode i) s))
    (hC : successorIn (commandPhases i) .check = some .subkey)
    (hS : successorIn (commandPhases i) .subkey = some .deriveY0)
    (hD : successorIn (commandPhases i) .deriveY0 = some q)
    (hkey : Memory.readBytes .key s.bufs.key 0 s.regs.keyLen.toNat = .ok op.key)
    (hnonce : Memory.readBytes .nonce s.bufs.nonce 0 s.regs.nonceLen.toNat = .ok op.nonce)
    (hr : Runs P (enter q (sessionStart P op (start (encode i) s))) o) : Runs P (start (encode i) s) o := by
  have h0 := running_start i s
  refine h0.runs_advance _ rfl hC hcheck rfl ?_
  refine Running.runs_advance (deriveSubkey P op.key (enter .subkey (start (encode i) s)))
    (running_enter.mpr h0) rfl hS ?_ rfl ?_
  · simp [enter, tickPhase, withKey, hkey, withBytes]
  refine Running.runs_advance (sessionStart P op (start (encode i) s))
    (running_enter.mpr ((running_deriveSubkey _).mpr (running_enter.mpr h0))) rfl hD ?_ ?_ hr
  · simp [enter, tickPhase, hnonce, withBytes, sessionStart]
  · exact sessionStart_phase P op _

theorem runs_tag {key : List Byte} (h : Running i s0 s) (hq : successorIn (commandPhases i) .tag = some q)
    (hkey : Memory.readBytes .key s0.bufs.key 0 s0.regs.keyLen.toNat = .ok key)
    (hr : Runs P (enter q (maskTag P key (enterPhase .tag s))) o) : Runs P (enter .tag s) o := by
  refine Running.runs_advance (maskTag P key (enterPhase .tag s)) (running_enter.mpr h) rfl hq ?_ rfl hr
  simp [enter, tickPhase, withKey, h.regs_eq, h.bufs_eq, hkey, withBytes]

/-- The one decision of GCM_DEC, in COMPARE (R78, R186). -/
theorem runs_compare (h : Running .gcmDec s0 s) :
    Runs P (enter .compare s) (.next (decideDecryption (enter .compare s))) := by
  have hc := (running_enter (p := .compare)).mpr h
  by_cases heq : tagsEqual (enter .compare s) = true
  · rw [decideDecryption, if_pos heq]
    refine hc.runs_advance (enter .compare s) (p := .compare) (q := .publish) rfl rfl ?_ rfl (runs_publish hc)
    rw [tickPhase]
    exact if_pos heq
  · rw [decideDecryption, if_neg heq]
    exact hc.runs_last (p := .compare) rfl (by decide) (if_neg heq)

/-- From an empty OBUF, KEYSTREAM stages there all the bytes that GCM_ENC hashes. -/
theorem readBytes_keystreamPhase (key : List Byte) {d : List Byte} (hob : s.hidden.obuf = [])
    (hlen : d.length = s.regs.dataLen.toNat) :
    Memory.readBytes .dout (keystreamPhase P key d s).hidden.obuf 0 s.regs.dataLen.toNat =
      .ok (stagedBytes (keystreamPhase P key d s)) := by
  have hlen' := (gctr_length (P.cipher key) s.hidden.y d).trans hlen
  have hks := keystreamPhase_eq P key d s hob (hlen ▸ s.regs.dataLen.isLt)
  have hstaged : stagedBytes (keystreamPhase P key d s) = gctr (P.cipher key) s.hidden.y d := by
    rw [stagedBytes, releasedBytes, hks, below_cellsFrom _ _ hlen'.le]
    exact Memory.values_cellsFrom _ 0
  rw [hstaged, hks]
  exact (Memory.readBytes_ok_iff ..).mpr ⟨hlen', fun j v hj => by rw [Memory.read_cellsFrom, hj]⟩

theorem runs_gcmEnc (P : Params) (s : State) : Runs P (start (encode .gcmEnc) s) (gcmEncWith P s) := by
  have h0 := running_start .gcmEnc s
  cases hadmit : admitGcm P s.regs with
  | some code => exact runs_check (by simp [tickCheck, gcmEncWith, hadmit])
  | none =>
    cases hop : sampleGcm s.regs s.bufs with
    | error r => exact runs_check (by simp [tickCheck, gcmEncWith, hadmit, hop])
    | ok op =>
      obtain ⟨hkey, hnonce, ha, hd⟩ := sampleGcm_ok _ _ _ hop
      have hexec : gcmEncWith P s = .next (tickPublish .gcmEnc (enter .publish
          (encryptPhases P op (start (encode .gcmEnc) s)))) := by
        simp only [gcmEncWith, hadmit, hop]
        rfl
      rw [hexec]
      have hsession := (running_sessionStart (P := P) op).mpr h0
      have hks := (running_keystreamPhase (P := P) op.key op.data).mpr hsession
      have hhash := (running_hashPhases op.aad
        (stagedBytes (keystreamPhase P op.key op.data (sessionStart P op (start (encode .gcmEnc) s))))).mpr hks
      have hstaged := readBytes_keystreamPhase (P := P) op.key (sessionStart_obuf P op (start (encode .gcmEnc) s))
        (by rw [hsession.regs_eq, readBytes_length hd])
      rw [hsession.regs_eq] at hstaged
      refine runs_sessionStart (by simp [tickCheck, hadmit, hop]) rfl rfl rfl hkey hnonce ?_
      refine runs_keystream hsession rfl hkey hd ?_
      refine runs_hashPhases hks rfl rfl rfl ha hstaged ?_
      exact runs_tag hhash rfl hkey (runs_publish ((running_maskTag _).mpr hhash))

theorem runs_gcmDec (P : Params) (s : State) : Runs P (start (encode .gcmDec) s) (gcmDecWith P s) := by
  have h0 := running_start .gcmDec s
  cases hadmit : admitGcm P s.regs with
  | some code => exact runs_check (by simp [tickCheck, gcmDecWith, hadmit])
  | none =>
    cases hop : sampleGcm s.regs s.bufs with
    | error r => exact runs_check (by simp [tickCheck, gcmDecWith, hadmit, hop])
    | ok op =>
      obtain ⟨hkey, hnonce, ha, hd⟩ := sampleGcm_ok _ _ _ hop
      have hexec : gcmDecWith P s = .next (decideDecryption (enter .compare
          (decryptPhases P op (start (encode .gcmDec) s)))) := by
        simp only [gcmDecWith, hadmit, hop]
        rfl
      rw [hexec]
      have hsession := (running_sessionStart (P := P) op).mpr h0
      have hhash := (running_hashPhases op.aad op.data).mpr hsession
      have hmask := (running_maskTag (P := P) op.key).mpr ((running_enterPhase (p := .tag)).mpr hhash)
      have hdin : Memory.readBytes .din (sessionStart P op (start (encode .gcmDec) s)).bufs.din 0
          s.regs.dataLen.toNat = .ok op.data := by rwa [hsession.bufs_eq]
      refine runs_sessionStart (by simp [tickCheck, hadmit, hop]) rfl rfl rfl hkey hnonce ?_
      refine runs_hashPhases hsession rfl rfl rfl ha hdin ?_
      refine runs_tag hhash rfl hkey ?_
      exact runs_keystream hmask rfl hkey hd (runs_compare ((running_keystreamPhase _ _).mpr hmask))

/-- The ticks of a command end in what `exec` answers, be it a state or a refusal. -/
theorem runs_exec (i : Instr) (s : State) : Runs Config.params (start (encode i) s) (exec i s) := by
  cases i with
  | gfAdd => exact runs_primitive (start (encode .gfAdd) s) rfl rfl (running_start _ s) rfl
  | gfMul =>
    exact runs_primitive (runMultiplier s.regs.opa s.regs.opb (start (encode .gfMul) s)) rfl rfl
      ((running_runMultiplier _ _).mpr (running_start _ s)) rfl
  | inc32 => exact runs_primitive (start (encode .inc32) s) rfl rfl (running_start _ s) rfl
  | ghash => exact runs_ghash _ s
  | gcmEnc => exact runs_gcmEnc _ s
  | gcmDec => exact runs_gcmDec _ s

/-- Settles O46: the run of ticks that ends in `exec`'s answer is put together phase by phase (`runs_exec`). -/
theorem ticksRefineExec : Obligations.TicksRefineExec := by
  intro i s
  obtain ⟨n, hn, hbusy⟩ := runs_exec i s
  exact ⟨fun t ht => ⟨n, hn.trans ht, hbusy⟩, fun r hr => ⟨n, hn.trans hr⟩⟩

end Sys2Proof.Machine
end

section
/-!
PROOFS. ResetMeetsInvariant, StepKeepsInvariant, NoPartialOutput and StatusIsIdleBusyOrDone: the invariant of a core that
is idle, one that has just started a command, one that goes on with it and one that has completed it; every step leads
to one of these.
-/

namespace Sys2Proof.Machine

variable {P : Params} {i : Instr} {s t : State} {a : HostAction}

/-! ## The words STATUS may hold -/

theorem Status.legal_cases {w : Word32} (h : Status.legal w = true) :
    w = 0 ∨ w = Status.executing ∨ w = Status.succeeded ∨ w = Status.authenticated ∨ ∃ c, w = Status.failed c := by
  simp only [Status.legal, Bool.or_eq_true, List.any_eq_true, beq_iff_eq, or_assoc] at h
  exact h.imp_right (.imp_right (.imp_right (.imp_right fun ⟨c, _, hc⟩ => ⟨c, hc⟩)))

theorem Status.eq_executing_of_busy {w : Word32} (h : Status.legal w = true) (hb : Status.busy w = true) :
    w = Status.executing := by
  obtain rfl | rfl | rfl | rfl | ⟨c, rfl⟩ := Status.legal_cases h
  · cases hb
  · rfl
  · cases hb
  · cases hb
  · obtain ⟨hidle, -⟩ := Status.failed_fields c
    cases hidle.symm.trans hb

/-! ## The invariant of an idle core and of a busy one -/

/-- The host's own lists and the schedule are no state of the core: the invariant does not speak of them. -/
theorem invariant_ports {s : State} {p : List HostAction} {r : List HostReply} {b : Bool} :
    Invariant { s with pending := p, replies := r, split := b } ↔ Invariant s :=
  ⟨fun h => { h with }, fun h => { h with }⟩

/-- On an idle core the invariant's clauses about a running command hold of themselves. -/
theorem invariant_of_idle (hb : coreBusy s = false) (hm : memoriesWf s = true) (hst : Status.legal s.status = true)
    (hz : s.hidden = Hidden.zero) (hd : s.dout.map Prod.fst = List.range s.outLen.toNat)
    (he : Status.err s.status = true ∨ s.status = 0 → outputsBlank s) : Invariant s where
  memories := hm
  status := hst
  phase := by simp [hb, hz, Hidden.zero]
  hiddenClear _ := hz
  busyBlank h := by simp [hb] at h
  doutExtent := hd
  errorBlank := he
  illegalInCheck h := by simp [hb] at h
  phaseOfCommand h := by simp [hb] at h
  staged h := by simp [hb] at h

theorem memoriesWf_iff : memoriesWf s = true ↔
    (Memory.wf s.bufs.key = true ∧ Memory.wf s.bufs.nonce = true ∧ Memory.wf s.bufs.aad = true ∧
      Memory.wf s.bufs.din = true) ∧ Memory.wf s.dout = true ∧ Memory.wf s.hidden.obuf = true := by
  simp only [memoriesWf, Bool.and_eq_true, and_assoc]

/-- The invariant of an idle core says nothing of the host-written registers, and of the input buffers only their form. -/
theorem Invariant.hostWritten (hi : Invariant s) (hb : coreBusy s = false) (regs : HostRegs) {bufs : InputBufs}
    (hm : memoriesWf { s with bufs := bufs } = true) : Invariant { s with regs := regs, bufs := bufs } :=
  invariant_of_idle hb hm hi.status (hi.hiddenClear hb) hi.doutExtent hi.errorBlank

/-- START of any word keeps the canonical form: it empties the core's own buffers. -/
theorem memoriesWf_start (w : Word32) (hm : memoriesWf s = true) : memoriesWf (start w s) = true :=
  memoriesWf_iff.mpr ⟨(memoriesWf_iff.mp hm).1, rfl, rfl⟩

theorem coreBusy_start (w : Word32) (s : State) : coreBusy (start w s) = true := by
  simp only [coreBusy, start_status]; decide

/-- START meets the invariant: the core is in CHECK with nothing published and nothing staged (R92). -/
theorem invariant_start (w : Word32) (hm : memoriesWf s = true) : Invariant (start w s) where
  memories := memoriesWf_start w hm
  status := by simp only [start_status]; decide
  phase := by simp [coreBusy_start]
  hiddenClear h := by simp [coreBusy_start] at h
  busyBlank _ := ⟨rfl, rfl, rfl, rfl⟩
  doutExtent := rfl
  errorBlank _ := ⟨rfl, rfl, rfl, rfl⟩
  illegalInCheck _ _ _ := rfl
  phaseOfCommand _ i _ := by show Phase.check ∈ commandPhases i; cases i <;> decide
  staged _ i _ := by cases i <;> rfl

/-- A completion meets the invariant, whatever the core was doing (R37, R38). -/
theorem invariant_of_justCompleted (h : JustCompleted s t) (hm : memoriesWf s = true) : Invariant t := by
  obtain ⟨st, res, tag, len, dout, rfl, hlegal, hbusy, -, hne, hdout, herr⟩ := h
  have hwf : memoriesWf (complete st res tag len dout s) = true :=
    memoriesWf_iff.mpr ⟨(memoriesWf_iff.mp hm).1, wf_of_extent _ _ hdout, rfl⟩
  refine invariant_of_idle hbusy hwf hlegal rfl hdout ?_
  rintro (he | h0)
  · exact herr he
  · exact absurd h0 hne

/-- A command that goes on keeps the invariant: nothing but the hidden state and the requests has changed. -/
theorem Invariant.stillBusy (hi : Invariant s) (hb : coreBusy s = true) (hc : decode s.cmd = .command i)
    (h : StillBusy i s t) : Invariant t := by
  obtain ⟨hid, rq, rfl, hphase, hobuf⟩ := h
  obtain ⟨hin, hdout, -⟩ := memoriesWf_iff.mp hi.memories
  have hbusy : coreBusy { s with hidden := hid, requests := rq } = true := hb
  have hcmd : ∀ j, decode s.cmd = .command j → j = i := fun j hj => by rw [hc] at hj; cases hj; rfl
  exact
    { memories := memoriesWf_iff.mpr ⟨hin, hdout, wf_of_extent _ _ hobuf⟩
      status := hi.status
      phase := by
        rw [hbusy]
        exact ⟨fun h => absurd (h ▸ hphase) (idle_not_mem_commandPhases i), fun h => by cases h⟩
      hiddenClear := fun h => by simp [hbusy] at h
      busyBlank := fun _ => hi.busyBlank hb
      doutExtent := hi.doutExtent
      errorBlank := hi.errorBlank
      illegalInCheck := fun _ why h => by simp [hc] at h
      phaseOfCommand := fun _ j hj => hcmd j hj ▸ hphase
      staged := fun _ j hj => hcmd j hj ▸ hobuf }

/-! ## What a tick, a command and a host action do to the invariant -/

/-- A tick that goes on leaves a command running, or completes it (R36, R37). -/
theorem tick_next_cases (hi : Invariant s) (hb : coreBusy s = true) (h : tick P s = .next t) :
    (∃ i, decode s.cmd = .command i ∧ StillBusy i s t) ∨ JustCompleted s t := by
  cases hd : decode s.cmd with
  | illegal why =>
    simp only [tick, hd, hi.illegalInCheck hb why hd, if_true, Host.Outcome.next.injEq] at h
    exact .inr (h ▸ justCompleted_raiseErr .illegalCmd s)
  | command i =>
    obtain ⟨t', ht', hgo⟩ | ⟨r, hr⟩ := tick_of_command P i s hb hi hd
    · cases ht'.symm.trans h
      exact hgo.imp_left fun hs => ⟨i, rfl, hs⟩
    · cases hr.symm.trans h

/-- The core left to itself keeps the invariant. -/
theorem coreStep_keeps_invariant (hi : Invariant s) (h : coreStep P s = .next t) : Invariant t := by
  unfold coreStep at h
  split at h
  · next hb =>
    obtain ⟨i, hc, hs⟩ | hdone := tick_next_cases hi hb h
    · exact hi.stillBusy hb hc hs
    · exact invariant_of_justCompleted hdone hi.memories
  · cases h
    exact hi

/-- A command that ends is a completion: of the state at its START, with the requests it has made (R37). -/
theorem exec_justCompleted (h : exec i s = .next t) :
    ∃ rq, JustCompleted { s with cmd := encode i, requests := rq } t := by
  obtain ⟨st, res, tag, len, dout, rq, rfl, hcases⟩ := exec_next_cases h
  refine ⟨rq, st, res, tag, len, dout, rfl, ?_⟩
  obtain ⟨hbs, hds, hes, -, -, -, hls⟩ := Status.succeeded_fields
  obtain ⟨hba, hda, hea, -, -, -, hla⟩ := Status.authenticated_fields
  obtain ⟨c, rfl, -, -, rfl, rfl, rfl, rfl⟩ | ⟨-, rfl, rfl, rfl, rfl, -⟩ |
    ⟨-, rfl, rfl, rfl, c, hc, rfl⟩ | ⟨-, rfl, rfl, rfl, rfl, c, hc, rfl⟩ := hcases
  · obtain ⟨hb, hd, -, -, -, -, -, hl⟩ := Status.failed_fields c
    exact ⟨hl, hb, hd, by cases c <;> decide, rfl, fun _ => ⟨rfl, rfl, rfl, rfl⟩⟩
  · exact ⟨hls, hbs, hds, by decide, rfl, by simp [hes]⟩
  · exact ⟨hls, hbs, hds, by decide, by rw [Memory.keys_cellsFrom, hc, List.range_eq_range'], by simp [hes]⟩
  · exact ⟨hla, hba, hda, by decide, by rw [Memory.keys_cellsFrom, hc, List.range_eq_range'], by simp [hea]⟩

/-- A write of CMD keeps the invariant: it is dropped, or it is START, or a whole command. -/
theorem hostWriteCmd_keeps_invariant {w : Word32} (hi : Invariant s) (h : hostWriteCmd w s = .next t) :
    Invariant t := by
  simp only [hostWriteCmd, runCommand] at h
  split at h
  · cases h; exact hi
  · split at h
    · cases h; exact invariant_start w hi.memories
    · split at h
      · obtain ⟨rq, hdone⟩ := exec_justCompleted h
        exact invariant_of_justCompleted hdone hi.memories
      · cases h
        exact invariant_of_justCompleted (justCompleted_raiseErr _ _) (memoriesWf_start w hi.memories)

/-- A write of a register changes at most the host-written registers, and those of an idle core alone (R46). -/
theorem hostWrite64_cases (r : Reg64) (v : Word64) (s : State) :
    hostWrite64 r v s = s ∨ coreBusy s = false ∧ ∃ regs, hostWrite64 r v s = { s with regs := regs } := by
  unfold hostWrite64
  split
  · exact .inl rfl
  · next hb =>
    refine .inr ⟨by simpa using hb, ?_⟩
    cases r <;> exact ⟨_, rfl⟩

theorem hostWrite128_cases (r : Reg128) (v : Block) (s : State) :
    hostWrite128 r v s = s ∨ coreBusy s = false ∧ ∃ regs, hostWrite128 r v s = { s with regs := regs } := by
  unfold hostWrite128
  split
  · exact .inl rfl
  · next hb =>
    refine .inr ⟨by simpa using hb, ?_⟩
    cases r <;> exact ⟨_, rfl⟩

theorem Invariant.registerWrite (hi : Invariant s)
    (h : t = s ∨ coreBusy s = false ∧ ∃ regs, t = { s with regs := regs }) : Invariant t := by
  obtain rfl | ⟨hb, regs, rfl⟩ := h
  · exact hi
  · exact hi.hostWritten hb regs hi.memories

/-- A write of one byte keeps every buffer in canonical form. -/
theorem memoriesWf_writeInput (b : Buf) (j : Nat) (v : Byte) (hm : memoriesWf s = true) :
    memoriesWf { s with bufs := writeInput b j v s.bufs } = true := by
  rw [memoriesWf_iff] at hm ⊢
  obtain ⟨⟨hkey, hnonce, haad, hdin⟩, hcore⟩ := hm
  refine ⟨?_, hcore⟩
  cases b with
  | key => exact ⟨Memory.write_wf _ _ _ hkey, hnonce, haad, hdin⟩
  | nonce => exact ⟨hkey, Memory.write_wf _ _ _ hnonce, haad, hdin⟩
  | aad => exact ⟨hkey, hnonce, Memory.write_wf _ _ _ haad, hdin⟩
  | din => exact ⟨hkey, hnonce, haad, Memory.write_wf _ _ _ hdin⟩
  | dout => exact ⟨hkey, hnonce, haad, hdin⟩

theorem hostWriteByte_keeps_invariant {b : Buf} {j : Nat} {v : Byte} (hi : Invariant s)
    (h : hostWriteByte P b j v s = .next t) : Invariant t := by
  unfold hostWriteByte at h
  split at h
  · cases h; exact hi
  · next hb =>
    split at h
    · cases h; exact hi
    · split at h
      · cases h
        exact hi.hostWritten (by simpa using hb) s.regs (memoriesWf_writeInput b j v hi.memories)
      · cases h

theorem invariant_reset : Invariant State.reset :=
  invariant_of_idle rfl memoriesWf_reset rfl rfl rfl fun _ => ⟨rfl, rfl, rfl, rfl⟩

/-- Every host action keeps the invariant, the core's own step during a WAIT or a pause among them. -/
theorem hostAction_keeps_invariant (hi : Invariant s) (h : hostAction P a s = .next t) : Invariant t := by
  cases a with
  | write32 r v =>
    cases r with
    | cmd => exact hostWriteCmd_keeps_invariant hi h
    | status => cases h; exact hi
  | write64 r v => cases h; exact hi.registerWrite (hostWrite64_cases r v s)
  | write128 r v => cases h; exact hi.registerWrite (hostWrite128_cases r v s)
  | writeByte b j v => exact hostWriteByte_keeps_invariant hi h
  | read32 r => cases h; exact invariant_ports.mpr hi
  | read64 r => cases h; exact invariant_ports.mpr hi
  | read128 r => cases h; exact invariant_ports.mpr hi
  | readByte b j =>
    simp only [hostAction, replyByte] at h
    split at h <;> cases h
    exact invariant_ports.mpr hi
  | wait =>
    simp only [hostAction] at h
    split at h
    · cases h; exact hi
    · exact coreStep_keeps_invariant (invariant_ports.mpr hi) h
  | pause => exact coreStep_keeps_invariant hi h
  | reset => cases h; exact invariant_ports.mpr invariant_reset

/-- Settles O48: at reset the core is idle with nothing in any buffer. -/
theorem resetMeetsInvariant : Obligations.ResetMeetsInvariant := invariant_reset

/-- Settles O49: a step is the core's own, or the host action at the head of `pending`. -/
theorem stepKeepsInvariant : Obligations.StepKeepsInvariant := by
  intro s t hi h
  unfold step at h
  split at h
  · exact coreStep_keeps_invariant hi h
  · exact hostAction_keeps_invariant (invariant_ports.mpr hi) h

/-- Settles O47: a tick that goes on leaves the command running, with nothing published, or completes it. -/
theorem noPartialOutput : Obligations.NoPartialOutput := by
  intro s t hi hb h
  obtain ⟨i, hc, hs⟩ | hdone := tick_next_cases hi hb h
  · obtain ⟨hid, rq, rfl, -⟩ := hs
    exact .inl ⟨hb, Status.eq_executing_of_busy hi.status hb, hi.busyBlank hb⟩
  · obtain ⟨st, res, tag, len, dout, rfl, -, hbusy, hdone, -⟩ := hdone
    exact .inr ⟨hbusy, hdone, rfl⟩

/-- Settles O51: field by field, for each of the words STATUS may hold. -/
theorem statusIsIdleBusyOrDone : Obligations.StatusIsIdleBusyOrDone := by
  intro s hi
  obtain h | h | h | h | ⟨c, h⟩ := Status.legal_cases hi.status <;> rw [h]
  · decide
  · decide
  · decide
  · decide
  · cases c <;> decide

end Sys2Proof.Machine
end

section
/-!
PROOFS. CompletionPublishesAndClears, SessionsAreIsolated and UnwrittenOperandIsRefused: the ways a command can end, and
each command that reads buffers as one function of what it reads.
-/

namespace Sys2Proof.Machine

variable {P : Params} {i : Instr} {s t : State}

/-- Settles O35: the STATUS of each way a command can complete (`exec_next_cases`), field by field. -/
theorem completionPublishesAndClears : Obligations.CompletionPublishesAndClears := by
  intro i s t h
  obtain ⟨st, res, tag, len, dout, rq, rfl, hcases⟩ := exec_next_cases h
  have hs := Status.succeeded_fields
  have ha := Status.authenticated_fields
  simp only [coreBusy, doneLine, completed, outputsBlank]
  obtain ⟨c, rfl, -, -, rfl, rfl, rfl, rfl⟩ | ⟨hprim, rfl, -⟩ | ⟨rfl, rfl, -⟩ | ⟨rfl, rfl, -⟩ := hcases
  · obtain ⟨-, -, -, -, -, -, hne, -⟩ := Status.failed_fields c
    simpa [Status.failed_fields c, Hidden.zero] using hne
  · obtain rfl | rfl | rfl | rfl := hprim <;> simp [hs, Hidden.zero]
  · simp [hs, Hidden.zero]
  · simp [ha, Hidden.zero]

/-! ## The commands that read buffers, as functions of what they read -/

/-- How a command that reads buffers ends: with an admission error, with a refusal for an operand that is not written, or
with its run on the operands (R136, R137, R171, R172, U7). -/
def admittedRun {α : Type} (check : Option ErrCode) (operands : Except Refusal α) (fail : ErrCode → State)
    (run : α → State) : Host.Outcome State Fault Refusal :=
  match check, operands with
  | some c, _ => .next (fail c)
  | none, .error r => .refused r
  | none, .ok op => .next (run op)

theorem ghashWith_eq (P : Params) (s : State) :
    ghashWith P s = admittedRun (admitGhash P s.regs) (sampleGhash s.regs s.bufs)
      (fun c => completed (encode .ghash) (Status.failed c) 0 0 0 [] [] s)
      (fun op => completed (encode .ghash) Status.succeeded (ghash s.regs.opa op.aad op.data) 0 0 [] [] s) := by
  obtain ⟨c, hc, h⟩ | ⟨hn, r, hr, h⟩ | ⟨hn, op, hop, h⟩ := ghashWith_cases P s
  · rw [h, hc, admittedRun]
  · rw [h, hn, hr, admittedRun]
  · rw [h, hn, hop, admittedRun]

theorem gcmEncWith_eq (P : Params) (s : State) :
    gcmEncWith P s = admittedRun (admitGcm P s.regs) (sampleGcm s.regs s.bufs)
      (fun c => completed (encode .gcmEnc) (Status.failed c) 0 0 0 [] [] s)
      (fun op => completed (encode .gcmEnc) Status.succeeded 0
        (gcmEncrypt (P.cipher op.key) op.nonce op.aad op.data).2 s.regs.dataLen
        (Memory.cellsFrom 0 (gcmEncrypt (P.cipher op.key) op.nonce op.aad op.data).1)
        ((encryptRequests (deriveY0 (P.cipher op.key 0) op.nonce) (blockCount op.data.length)).map
          fun b => ⟨op.key, b⟩) s) := by
  obtain ⟨c, hc, h⟩ | ⟨hn, r, hr, h⟩ | ⟨hn, op, hop, h⟩ := gcmEncWith_cases P s
  · rw [h, hc, admittedRun]
  · rw [h, hn, hr, admittedRun]
  · rw [h, hn, hop, admittedRun]

/-- The completion of GCM_DEC on its operands: released with equal tags, discarded with unequal ones (R190, R191). -/
def decryptCompletion (P : Params) (op : GcmOperands) (s : State) : State :=
  let requests := (decryptRequests (deriveY0 (P.cipher op.key 0) op.nonce) (blockCount op.data.length)).map
    fun b => { key := op.key, block := b }
  if gcmTag (P.cipher op.key) op.nonce op.aad op.data = s.regs.tagIn then
    completed (encode .gcmDec) Status.authenticated 0 0 s.regs.dataLen
      (Memory.cellsFrom 0 (gctr (P.cipher op.key) (deriveY0 (P.cipher op.key 0) op.nonce) op.data)) requests s
  else completed (encode .gcmDec) (Status.failed .authFail) 0 0 0 [] requests s

theorem gcmDecWith_eq (P : Params) (s : State) :
    gcmDecWith P s = admittedRun (admitGcm P s.regs) (sampleGcm s.regs s.bufs)
      (fun c => completed (encode .gcmDec) (Status.failed c) 0 0 0 [] [] s) (fun op => decryptCompletion P op s) := by
  obtain ⟨c, hc, h⟩ | ⟨hn, r, hr, h⟩ | ⟨hn, op, hop, htag, h⟩ | ⟨hn, op, hop, htag, h⟩ := gcmDecWith_cases P s
  · rw [h, hc, admittedRun]
  · rw [h, hn, hr, admittedRun]
  · rw [h, hn, hop, admittedRun, decryptCompletion, if_pos htag]
  · rw [h, hn, hop, admittedRun, decryptCompletion, if_neg htag]

/-! ## A command's result is a function of what it reads -/

theorem sameResult_completed {w st : Word32} {v v' tag : Block} {len len' : Word64} {dout : Memory}
    {rq : List CipherRequest} (hv : v = v') (hlen : len = len') :
    SameResult (.next (completed w st v tag len dout rq s)) (.next (completed w st v' tag len' dout rq t)) := by
  subst hv hlen
  exact ⟨⟨rfl, rfl, rfl, rfl, rfl, rfl⟩, rfl, rfl⟩

theorem sameResult_admittedRun {α : Type} {check check' : Option ErrCode} {operands operands' : Except Refusal α}
    {fail fail' : ErrCode → State} {run run' : α → State} (ha : check = check') (ho : operands = operands')
    (hfail : ∀ c, SameResult (.next (fail c)) (.next (fail' c)))
    (hrun : ∀ op, SameResult (.next (run op)) (.next (run' op))) :
    SameResult (admittedRun check operands fail run) (admittedRun check' operands' fail' run') := by
  subst ha ho
  cases check with
  | some c => exact hfail c
  | none =>
    cases operands with
    | error r => exact rfl
    | ok op => exact hrun op

theorem sameResult_decryptCompletion (op : GcmOperands) (hlen : s.regs.dataLen = t.regs.dataLen)
    (htag : s.regs.tagIn = t.regs.tagIn) :
    SameResult (.next (decryptCompletion P op s)) (.next (decryptCompletion P op t)) := by
  unfold decryptCompletion
  rw [htag]
  split
  · exact sameResult_completed rfl hlen
  · exact sameResult_completed rfl rfl

theorem sameResult_exec (i : Instr) (hr : s.regs = t.regs) (hb : s.bufs = t.bufs) :
    SameResult (exec i s) (exec i t) := by
  have hfail : ∀ c, SameResult (.next (completed (encode i) (Status.failed c) 0 0 0 [] [] s))
      (.next (completed (encode i) (Status.failed c) 0 0 0 [] [] t)) := fun _ => sameResult_completed rfl rfl
  cases i with
  | gfAdd => exact sameResult_completed (by rw [hr]) rfl
  | gfMul => exact sameResult_completed (by simp only [runMultiplier_hidden, hr]) rfl
  | inc32 => exact sameResult_completed (by rw [hr]) rfl
  | ghash =>
    show SameResult (ghashWith Config.params s) (ghashWith Config.params t)
    rw [ghashWith_eq, ghashWith_eq]
    exact sameResult_admittedRun (by rw [hr]) (by rw [hr, hb]) hfail
      fun op => sameResult_completed (by rw [hr]) rfl
  | gcmEnc =>
    show SameResult (gcmEncWith Config.params s) (gcmEncWith Config.params t)
    rw [gcmEncWith_eq, gcmEncWith_eq]
    exact sameResult_admittedRun (by rw [hr]) (by rw [hr, hb]) hfail
      fun op => sameResult_completed rfl (by rw [hr])
  | gcmDec =>
    show SameResult (gcmDecWith Config.params s) (gcmDecWith Config.params t)
    rw [gcmDecWith_eq, gcmDecWith_eq]
    exact sameResult_admittedRun (by rw [hr]) (by rw [hr, hb]) hfail
      fun op => sameResult_decryptCompletion op (by rw [hr]) (by rw [hr])

/-- Settles O36: `sameResult_exec`; START clears the hidden state, and `exec_next_cases` has every completion clear it. -/
theorem sessionsAreIsolated : Obligations.SessionsAreIsolated := by
  refine ⟨fun i _ _ => sameResult_exec i, fun _ _ => rfl, fun i s t h => ?_⟩
  obtain ⟨st, res, tag, len, dout, rq, rfl, -⟩ := exec_next_cases h
  rfl

/-! ## Refusals -/

/-- `r` names a byte of an input buffer, below the length register, that nothing has written (R28, U7). -/
def NamesUnwritten (regs : HostRegs) (bufs : InputBufs) (r : Refusal) : Prop :=
  ∃ b j, r = .unwrittenByte b j ∧
    ((b = .key ∧ j < regs.keyLen.toNat ∧ Memory.read bufs.key j = none) ∨
      (b = .nonce ∧ j < regs.nonceLen.toNat ∧ Memory.read bufs.nonce j = none) ∨
      (b = .aad ∧ j < regs.aadLen.toNat ∧ Memory.read bufs.aad j = none) ∨
      (b = .din ∧ j < regs.dataLen.toNat ∧ Memory.read bufs.din j = none))

theorem readBytes_zero_error {b : Buf} {m : Memory} {n : Nat} {r : Refusal} (h : Memory.readBytes b m 0 n = .error r) :
    ∃ j, r = .unwrittenByte b j ∧ j < n ∧ Memory.read m j = none := by
  obtain ⟨j, hr, -, hlt, hnone⟩ := Memory.readBytes_error b m n 0 r h
  exact ⟨j, hr, by omega, hnone⟩

theorem sampleGhash_error {regs : HostRegs} {bufs : InputBufs} {r : Refusal} (h : sampleGhash regs bufs = .error r) :
    NamesUnwritten regs bufs r := by
  unfold sampleGhash at h
  split at h
  · next _ haad =>
    cases h
    obtain ⟨j, hr, hj⟩ := readBytes_zero_error haad
    exact ⟨.aad, j, hr, .inr (.inr (.inl ⟨rfl, hj⟩))⟩
  · split at h <;> cases h
    next _ hdin =>
    obtain ⟨j, hr, hj⟩ := readBytes_zero_error hdin
    exact ⟨.din, j, hr, .inr (.inr (.inr ⟨rfl, hj⟩))⟩

theorem sampleGcm_error {regs : HostRegs} {bufs : InputBufs} {r : Refusal} (h : sampleGcm regs bufs = .error r) :
    NamesUnwritten regs bufs r := by
  unfold sampleGcm at h
  split at h
  · next _ hkey =>
    cases h
    obtain ⟨j, hr, hj⟩ := readBytes_zero_error hkey
    exact ⟨.key, j, hr, .inl ⟨rfl, hj⟩⟩
  · split at h
    · next _ hnonce =>
      cases h
      obtain ⟨j, hr, hj⟩ := readBytes_zero_error hnonce
      exact ⟨.nonce, j, hr, .inr (.inl ⟨rfl, hj⟩)⟩
    · split at h <;> cases h
      next _ hghash => exact sampleGhash_error hghash

theorem admittedRun_eq_refused {α : Type} {check : Option ErrCode} {operands : Except Refusal α}
    {fail : ErrCode → State} {run : α → State} {r : Refusal} :
    admittedRun check operands fail run = .refused r ↔ check = none ∧ operands = .error r := by
  cases check <;> cases operands <;> simp [admittedRun]

theorem admittedRun_ne_fault {α : Type} {check : Option ErrCode} {operands : Except Refusal α}
    {fail : ErrCode → State} {run : α → State} (f : Fault) : admittedRun check operands fail run ≠ .fault f := by
  cases check <;> cases operands <;> simp [admittedRun]

theorem exec_ghash_refused_iff {r : Refusal} : exec .ghash s = .refused r ↔
    admitGhash Config.params s.regs = none ∧ sampleGhash s.regs s.bufs = .error r := by
  show ghashWith Config.params s = _ ↔ _
  rw [ghashWith_eq, admittedRun_eq_refused]

theorem exec_gcm_refused_iff (hi : i = .gcmEnc ∨ i = .gcmDec) {r : Refusal} : exec i s = .refused r ↔
    admitGcm Config.params s.regs = none ∧ sampleGcm s.regs s.bufs = .error r := by
  obtain rfl | rfl := hi
  · show gcmEncWith Config.params s = _ ↔ _
    rw [gcmEncWith_eq, admittedRun_eq_refused]
  · show gcmDecWith Config.params s = _ ↔ _
    rw [gcmDecWith_eq, admittedRun_eq_refused]

theorem exec_refused_namesUnwritten {r : Refusal} (h : exec i s = .refused r) : NamesUnwritten s.regs s.bufs r := by
  cases i with
  | gfAdd => cases h
  | gfMul => cases h
  | inc32 => cases h
  | ghash => exact sampleGhash_error (exec_ghash_refused_iff.mp h).2
  | gcmEnc => exact sampleGcm_error ((exec_gcm_refused_iff (.inl rfl)).mp h).2
  | gcmDec => exact sampleGcm_error ((exec_gcm_refused_iff (.inr rfl)).mp h).2

theorem exec_ne_fault (i : Instr) (s : State) (f : Fault) : exec i s ≠ .fault f := by
  cases i with
  | gfAdd => exact nofun
  | gfMul => exact nofun
  | inc32 => exact nofun
  | ghash => exact fun h => admittedRun_ne_fault f ((ghashWith_eq Config.params s).symm.trans h)
  | gcmEnc => exact fun h => admittedRun_ne_fault f ((gcmEncWith_eq Config.params s).symm.trans h)
  | gcmDec => exact fun h => admittedRun_ne_fault f ((gcmDecWith_eq Config.params s).symm.trans h)

/-- Settles O38: a refusal is that of the operands' sampling, behind the admission checks, which admissible lengths pass. -/
theorem unwrittenOperandIsRefused : Obligations.UnwrittenOperandIsRefused := by
  refine ⟨fun i s r => exec_refused_namesUnwritten, ?_, ?_, exec_ne_fault⟩
  · intro s haad hdata hun
    obtain ⟨r, hr⟩ := sampleGhash_of_unwritten hun
    exact ⟨r, exec_ghash_refused_iff.mpr ⟨admitGhash_of_lengths haad hdata, hr⟩⟩
  · intro i s hi hkey hnonce hnonce' haad hdata hun
    obtain ⟨r, hr⟩ := sampleGcm_of_unwritten hun
    exact ⟨r, (exec_gcm_refused_iff hi).mpr ⟨admitGcm_of_lengths hkey hnonce hnonce' haad hdata, hr⟩⟩

end Sys2Proof.Machine
end

section
/-!
PROOFS. StepRunsDecodedCommand, BufferWriteReachesOneByte, BusyCoreIgnoresTheHost, IdleRegisterWrites, HostReads and
ResetValues: what one host action does.
-/

namespace Sys2Proof.Machine

variable {P : Params} {s : State} {a : HostAction}

theorem step_of_pending {rest : List HostAction} (h : s.pending = a :: rest) :
    step s = hostAction Config.params a { s with pending := rest } := by
  rw [step, h]

/-- Settles O3: a write of CMD on a busy core, on an idle one that splits commands, and on an idle one that runs them
whole. -/
theorem stepRunsDecodedCommand : Obligations.StepRunsDecodedCommand := by
  intro s w i rest hp hd
  have hcmd : step s = hostWriteCmd w { s with pending := rest } := step_of_pending hp
  simp only [hcmd, hostWriteCmd, runCommand, hd]
  refine ⟨fun hb hsplit => ?_, fun hb hsplit => ?_, fun hb => ?_⟩
  · rw [if_neg (by simpa [coreBusy] using hb), if_neg (by simpa using hsplit)]
  · rw [if_neg (by simpa [coreBusy] using hb), if_pos hsplit]
  · exact if_pos hb

theorem hostWriteByte_of_idle {b : Buf} {j : Nat} (v : Byte) (hb : coreBusy s = false)
    (hj : indexExists j (capacityOf P b) = true) :
    hostWriteByte P b j v s = .next { s with bufs := writeInput b j v s.bufs } := by
  rw [hostWriteByte, if_neg (by simp [hb]), if_pos hj]
  split
  · next hdout => rw [hdout, writeInput]
  · rfl

theorem indexExists_default (b : Buf) (j : Nat) : indexExists j (capacityOf Config.params b) = true := by
  cases b <;> rfl

theorem Memory.read_write (m : Memory) (j k : Nat) (v : Byte) :
    Memory.read (Memory.write m j v) k = if k = j then some v else Memory.read m k := by
  split
  · next h => rw [h, Memory.read_write_same]
  · next h => exact Memory.read_write_other m j k v h

theorem byteWritten_writeInput (b : Buf) (j : Nat) (v : Byte) (bufs : InputBufs) :
    ByteWritten b j v bufs (writeInput b j v bufs) := by
  cases b <;> simp [ByteWritten, writeInput, Memory.read_write]

/-- Settles O41: an index that exists is written (`hostWriteByte_of_idle`), and the write reaches its byte alone
(`byteWritten_writeInput`). -/
theorem bufferWriteReachesOneByte : Obligations.BufferWriteReachesOneByte := by
  refine ⟨fun s rest b j v hb => ?_, fun P s b j cap v hb hne hcap => ⟨fun hlt => ?_, fun hle => ?_⟩,
    fun _ => ⟨rfl, rfl, rfl⟩, fun _ _ _ _ _ => rfl⟩
  · exact ⟨_, hostWriteByte_of_idle v hb (indexExists_default b j), byteWritten_writeInput b j v s.bufs⟩
  · exact ⟨_, hostWriteByte_of_idle v hb (by simpa [hcap, indexExists] using hlt), byteWritten_writeInput b j v s.bufs⟩
  · rw [hostWriteByte, if_neg (by simp [hb]), if_neg hne, if_neg (by simpa [hcap, indexExists] using hle)]

/-- Settles O39: every write of the host port, and every read of a result, asks first whether the core is busy. -/
theorem busyCoreIgnoresTheHost : Obligations.BusyCoreIgnoresTheHost := by
  intro s rest hb
  refine ⟨fun r v => ?_, fun r v => ?_, fun r v => ?_, fun b j v => ?_, ?_, ?_, ?_, ?_, fun j => ?_,
    rfl, rfl, rfl, rfl, rfl, rfl, rfl, rfl⟩
  · cases r with
    | cmd => exact if_pos hb
    | status => rfl
  · exact congrArg _ (if_pos hb)
  · exact congrArg _ (if_pos hb)
  · exact if_pos hb
  · exact if_pos hb
  · exact if_pos hb
  · exact if_pos hb
  · exact if_pos hb
  · exact if_pos hb

/-- Settles O40: on an idle core the write goes to the register. -/
theorem idleRegisterWrites : Obligations.IdleRegisterWrites := by
  intro s rest v w b hb s'
  have idle : ∀ t, (if coreBusy s' then s' else t) = t := fun t => if_neg (by simpa [s', coreBusy] using hb)
  exact ⟨congrArg _ (idle _), congrArg _ (idle _), congrArg _ (idle _), congrArg _ (idle _), congrArg _ (idle _),
    congrArg _ (idle _), congrArg _ (idle _), rfl, congrArg _ (idle _), congrArg _ (idle _), congrArg _ (idle _)⟩

/-- A read of DOUT on a core that is busy, or at or above OUT_LEN, answers 0x00 (R29, R46). -/
theorem hostReadDout_blank {j : Nat} (h : coreBusy s = true ∨ s.outLen.toNat ≤ j) : hostReadDout j s = .ok 0 := by
  unfold hostReadDout
  split
  · rfl
  · next hb => rw [if_neg (by have := h.resolve_left hb; omega)]

theorem hostReadDout_of_read {j : Nat} {v : Byte} (hb : coreBusy s = false) (hj : j < s.outLen.toNat)
    (hv : Memory.read s.dout j = some v) : hostReadDout j s = .ok v := by
  rw [hostReadDout, if_neg (by simp [hb]), if_pos hj, hv]

theorem step_readByte {rest : List HostAction} {b : Buf} {j : Nat} {v : Byte} (h : hostReadByte b j s = .ok v) :
    step { s with pending := .readByte b j :: rest } =
      .next { s with pending := rest, replies := s.replies ++ [.byte b j v] } := by
  have hread : hostReadByte b j { s with pending := rest } = .ok v := by cases b <;> exact h
  show replyByte b j { s with pending := rest } = _
  rw [replyByte, hread]
  rfl

/-- Settles O42: a read answers and adds its reply to the host's record (`step_readByte`). -/
theorem hostReads : Obligations.HostReads := by
  intro s rest
  refine ⟨fun _ => rfl, fun _ => rfl, fun _ => rfl, fun b j hne => step_readByte ?_, fun j hj => step_readByte ?_,
    fun hb => ?_, fun j v hb hj hv => ?_, fun j hb => step_readByte ?_⟩
  · cases b with
    | key => rfl
    | nonce => rfl
    | aad => rfl
    | din => rfl
    | dout => exact absurd rfl hne
  · exact hostReadDout_blank (.inr hj)
  · simp [hostRead32, hostRead64, hostRead128, hb]
  · have hread : hostReadByte .dout j s = .ok v := hostReadDout_of_read hb hj hv
    exact ⟨hread, step_readByte hread⟩
  · exact hostReadDout_blank (.inl hb)

theorem doneLine_resetCore (s : State) : doneLine (resetCore s) = false := (rfl : doneLine State.reset = false)

theorem coreBusy_resetCore (s : State) : coreBusy (resetCore s) = false := (rfl : coreBusy State.reset = false)

/-- Settles O43: the step is `resetCore`, whose fields are those of `State.reset`. -/
theorem resetValues : Obligations.ResetValues := by
  intro s rest
  refine ⟨resetCore { s with pending := rest }, rfl, ?_⟩
  refine ⟨rfl, rfl, rfl, rfl, rfl, rfl, rfl, rfl, rfl, rfl, rfl, rfl, rfl, rfl, rfl, rfl, rfl, rfl, rfl, rfl, rfl, rfl,
    rfl, rfl, rfl, rfl, fun _ => hostReadDout_blank (.inr (Nat.zero_le _)), doneLine_resetCore _, coreBusy_resetCore _,
    fun _ => ⟨rfl, rfl, rfl, rfl⟩, ?_⟩
  rintro rfl rfl
  rfl

end Sys2Proof.Machine
end

section
/-!
PROOFS. BlockBytesAreBigEndian and SegmentPadsOnTheRight: a block and its 16 bytes, and the blocks of `segment` as those
of the padded sequence.
-/

namespace Sys2Proof.Machine

/-! ## A block and its bytes -/

/-- Each byte added at the end raises the weight of every byte before it by 2^8. -/
theorem intBe_eq_sum (s : List Byte) :
    intBe s = ∑ j ∈ Finset.range s.length, (s.getD j 0).toNat * 2 ^ (8 * (s.length - 1 - j)) := by
  induction s using List.reverseRecOn with
  | nil => rfl
  | append_singleton s b ih =>
    have hweight : ∀ j ∈ Finset.range s.length, ((s ++ [b]).getD j 0).toNat * 2 ^ (8 * (s.length + 1 - 1 - j)) =
        (s.getD j 0).toNat * 2 ^ (8 * (s.length - 1 - j)) * 256 := by
      intro j hj
      have hj := Finset.mem_range.mp hj
      have hexp : 8 * (s.length + 1 - 1 - j) = 8 * (s.length - 1 - j) + 8 := by omega
      rw [List.getD_append _ _ _ _ hj, hexp, Nat.pow_add, Nat.mul_assoc]
    rw [intBe_append, ih, List.length_append, List.length_singleton, Finset.sum_range_succ,
      Finset.sum_congr rfl hweight, Finset.sum_mul]
    simp [intBe]

theorem length_append_zeros {s : List Byte} (h : s.length ≤ 16) : (s ++ zeros (16 - s.length)).length = 16 := by
  simp [zeros, h]

theorem blockOfBytes_toNat {s : List Byte} (h : s.length ≤ 16) :
    (blockOfBytes s).toNat = intBe (s ++ zeros (16 - s.length)) := by
  have hlt := intBe_lt (s ++ zeros (16 - s.length))
  rw [length_append_zeros h] at hlt
  exact Nat.mod_eq_of_lt hlt

theorem be128_blockOfBytes {s : List Byte} (h : s.length ≤ 16) :
    be128 (blockOfBytes s) = s ++ zeros (16 - s.length) := by
  have hbytes := beBytes_intBe (s ++ zeros (16 - s.length))
  rwa [length_append_zeros h, ← blockOfBytes_toNat h] at hbytes

theorem blockOfBytes_be128 (v : Block) : blockOfBytes (be128 v) = v := by
  apply BitVec.eq_of_toNat_eq
  rw [blockOfBytes_toNat (be128_length v).le, be128_length, Nat.sub_self, zeros, List.replicate_zero, List.append_nil]
  exact intBe_beBytes 16 _ v.isLt

theorem be128_getD (v : Block) {j : Nat} (h : j < 16) : (be128 v).getD j 0 = v.extractLsb' (120 - 8 * j) 8 := by
  have hshift : 8 * (16 - 1 - j) = 120 - 8 * j := by omega
  simp [be128, beBytes, h, ← hshift, BitVec.extractLsb']

/-- Settles O18: both inverses, and the weights of the bytes (`intBe_eq_sum`), at 16 bytes. -/
theorem blockBytesAreBigEndian : Obligations.BlockBytesAreBigEndian := by
  refine ⟨fun s hs => ⟨?_, ?_⟩, fun v => ⟨be128_length v, blockOfBytes_be128 v, fun j hj => be128_getD v hj⟩⟩
  · simpa [hs, zeros] using be128_blockOfBytes hs.le
  · simpa [hs, zeros, intBe_eq_sum s] using blockOfBytes_toNat hs.le

/-! ## Segmentation -/

/-- A sequence with zero bytes on the right up to a whole number of blocks (R62). -/
def padded (s : List Byte) : List Byte := s ++ zeros (16 * blockCount s.length - s.length)

theorem padded_length (s : List Byte) : (padded s).length = 16 * blockCount s.length := by
  simp only [padded, zeros, List.length_append, List.length_replicate, blockCount]
  omega

theorem flatMap_chunk (s : List Byte) (n : Nat) : (List.range n).flatMap (chunk s) = s.take (16 * n) := by
  induction n with
  | zero => rfl
  | succ n ih =>
    rw [List.range_succ, List.flatMap_append, ih, List.flatMap_singleton, chunk, Nat.mul_succ, List.take_add]

theorem be128_blockOfBytes_chunk (s : List Byte) (k : Nat) :
    be128 (blockOfBytes (chunk s k)) = chunk s k ++ zeros (16 - min 16 (s.length - 16 * k)) := by
  have hlen := chunk_length s k
  rw [be128_blockOfBytes (by omega), hlen]

/-- A block lies within the sequence, or its end is the end of the padding. -/
theorem chunk_padded (s : List Byte) {k : Nat} (hk : k < blockCount s.length) :
    chunk (padded s) k = chunk s k ++ zeros (16 - min 16 (s.length - 16 * k)) := by
  unfold blockCount at hk
  have hdrop : 16 * k - s.length = 0 := by omega
  have htake : min (16 - (s.length - 16 * k)) (16 * ((s.length + 15) / 16) - s.length) =
      16 - min 16 (s.length - 16 * k) := by omega
  simp only [chunk, padded, blockCount, zeros, List.drop_append, hdrop, List.drop_zero, List.take_append,
    List.length_drop, List.take_replicate, htake]

theorem segmentBlocks_flatMap_be128 (s : List Byte) : (segmentBlocks s).flatMap be128 = padded s := by
  have hblock : ∀ k ∈ List.range (blockCount s.length), be128 (blockOfBytes (chunk s k)) = chunk (padded s) k :=
    fun k hk => (be128_blockOfBytes_chunk s k).trans (chunk_padded s (List.mem_range.mp hk)).symm
  rw [segmentBlocks, List.flatMap_map, List.flatMap_congr hblock, flatMap_chunk, ← padded_length, List.take_length]

theorem segmentBlocks_getD (s : List Byte) {k : Nat} (hk : k < blockCount s.length) :
    (segmentBlocks s).getD k 0 = blockOfBytes (chunk s k) := by
  simp [segmentBlocks, hk]

/-- Settles O19: a block's bytes are its chunk and zeros, and all of them are the padded sequence. -/
theorem segmentPadsOnTheRight : Obligations.SegmentPadsOnTheRight := by
  intro s
  refine ⟨segmentBlocks_length s, fun k hk => ?_, segmentBlocks_flatMap_be128 s, fun h => if_pos h, fun hpos h => ?_,
    fun h => ?_⟩
  · rw [segmentBlocks_getD s hk]
    exact be128_blockOfBytes_chunk s k
  · rw [lastLen, if_neg hpos.ne', if_pos h]
  · have hne : s.length ≠ 0 := fun h0 => h (by rw [h0])
    rw [lastLen, if_neg hne, if_neg h]

end Sys2Proof.Machine
end

section
/-!
PROOFS. WrittenWordsDecode and DecodeInvertsEncode; FetchWordRunsNext, StartClearsOutputsAndHidden,
IllegalWordCompletesWithCodeNine and WaitEndsWhenDone: the decoder as the inverse of the encoder, and what a write of CMD,
a WAIT and a pause do.
-/

namespace Sys2Proof.Machine

variable {P : Params} {i : Instr} {s : State} {w : Word32} {why : DecodeError}

/-! ## Words and commands -/

/-- The law of a command's word, for every command at once (R90, R91). -/
theorem opcodeWord (i : Instr) : Laws.OpcodeWord.Statement i := by
  cases i with
  | gfAdd => exact Laws.OpcodeWord.gfAdd
  | gfMul => exact Laws.OpcodeWord.gfMul
  | inc32 => exact Laws.OpcodeWord.inc32
  | ghash => exact Laws.OpcodeWord.ghash
  | gcmEnc => exact Laws.OpcodeWord.gcmEnc
  | gcmDec => exact Laws.OpcodeWord.gcmDec

theorem toWord_ofWord (w : Word32) : (FormatC.ofWord w).toWord = w :=
  BitVec.extractLsb'_append_extractLsb' (w := 24) (len := 8) (x := w)

theorem opcodeOfCommand_of_commandOfOpcode {opcode : BitVec 8} (h : commandOfOpcode opcode = some i) :
    opcodeOfCommand i = opcode := by
  unfold commandOfOpcode at h
  repeat' split at h
  all_goals cases h
  all_goals exact Eq.symm ‹_›

theorem decode_eq_command_iff_fields : decode w = .command i ↔
    (FormatC.ofWord w).zero = 0 ∧ commandOfOpcode (FormatC.ofWord w).opcode = some i := by
  unfold decode
  split
  · next hz => cases commandOfOpcode (FormatC.ofWord w).opcode <;> simp [hz]
  · next hz => exact ⟨nofun, fun h => absurd h.1 hz⟩

/-- A word with a clear ZERO field and a command's opcode is that command's word, since a word is its two fields. -/
theorem decode_eq_command_iff : decode w = .command i ↔ w = encode i := by
  refine ⟨fun h => ?_, fun h => h ▸ decode_encode i⟩
  obtain ⟨hz, hop⟩ := decode_eq_command_iff_fields.mp h
  rw [encode, opcodeOfCommand_of_commandOfOpcode hop, ← hz, toWord_ofWord]

theorem exists_illegal_iff : (∃ why, decode w = .illegal why) ↔ ∀ i, w ≠ encode i := by
  simp only [ne_eq, ← decode_eq_command_iff]
  cases decode w <;> simp

theorem forall_ne_encode_iff : (∀ i, w ≠ encode i) ↔
    w ≠ 0x01#32 ∧ w ≠ 0x02#32 ∧ w ≠ 0x03#32 ∧ w ≠ 0x04#32 ∧ w ≠ 0x10#32 ∧ w ≠ 0x11#32 := by
  refine ⟨fun h => ⟨h .gfAdd, h .gfMul, h .inc32, h .ghash, h .gcmEnc, h .gcmDec⟩, ?_⟩
  rintro ⟨hadd, hmul, hinc, hhash, henc, hdec⟩ i
  cases i with
  | gfAdd => exact hadd
  | gfMul => exact hmul
  | inc32 => exact hinc
  | ghash => exact hhash
  | gcmEnc => exact henc
  | gcmDec => exact hdec

/-- Settles O2: `decode_eq_command_iff`, and a word is illegal exactly when no command's word is it. -/
theorem decodeInvertsEncode : Obligations.DecodeInvertsEncode :=
  ⟨fun i _ => ⟨decode_encode i, (opcodeWord i).1⟩, fun _ _ => decode_eq_command_iff,
    fun _ => exists_illegal_iff.trans forall_ne_encode_iff⟩

/-- Settles O1: the decoder evaluated on the twelve words. -/
theorem writtenWordsDecode : Obligations.WrittenWordsDecode := by
  unfold Obligations.WrittenWordsDecode
  decide

/-! ## A write of CMD on an idle core -/

section

variable {rest : List HostAction}

theorem step_writeCmd (h : s.pending = .write32 .cmd w :: rest) :
    step s = hostWriteCmd w { s with pending := rest } := step_of_pending h

theorem hostWriteCmd_of_idle_split (hb : coreBusy s = false) (hs : s.split = true) :
    hostWriteCmd w s = .next (start w s) := by
  rw [hostWriteCmd, if_neg (by simp [hb]), if_pos hs]

theorem hostWriteCmd_of_idle_whole (hb : coreBusy s = false) (hs : s.split = false) :
    hostWriteCmd w s = runCommand w s := by
  rw [hostWriteCmd, if_neg (by simp [hb]), if_neg (by simp [hs])]

/-- An illegal word, run as one step: START and the error completion (R92, R94). -/
theorem runCommand_of_illegal (h : decode w = .illegal why) :
    runCommand w s = .next (completed w (Status.failed .illegalCmd) 0 0 0 [] [] s) := by
  rw [runCommand, h, raiseErr_start]

/-- The tick in CHECK of an illegal word is the same error completion. -/
theorem tick_start_of_illegal (h : decode w = .illegal why) :
    tick P (start w s) = .next (completed w (Status.failed .illegalCmd) 0 0 0 [] [] s) := by
  simp only [tick, start_cmd, start_hidden, h, if_true, raiseErr_start]

theorem decode_of_decodeTableWord {nbits n : Nat} (h : decodeTableWord nbits n = some i) :
    decode (BitVec.ofNat 32 (n % 2 ^ nbits)) = .command i := by
  unfold decodeTableWord at h
  split at h
  · next hd => cases h; exact hd
  · cases h

theorem coreBusy_withFetchWord (s : State) (nbits n : Nat) : coreBusy (s.withFetchWord nbits n) = false := by
  show Status.busy (if coreBusy s then 0 else s.status) = false
  split
  · rfl
  · next hb => exact Bool.eq_false_iff.mpr hb

/-- Settles O4: `withFetchWord` leaves an idle core that runs commands whole, with the write at the head of `pending`;
then `stepRunsDecodedCommand`. -/
theorem fetchWordRunsNext : Obligations.FetchWordRunsNext := by
  intro s nbits n i h
  exact (stepRunsDecodedCommand _ _ i s.pending rfl (decode_of_decodeTableWord h)).1 (coreBusy_withFetchWord s nbits n) rfl

/-- Settles O5: the step is `start`, whose fields are these. -/
theorem startClearsOutputsAndHidden : Obligations.StartClearsOutputsAndHidden := by
  intro s w rest hp hb hs
  exact ⟨start w { s with pending := rest }, (step_writeCmd hp).trans (hostWriteCmd_of_idle_split hb hs),
    rfl, rfl, rfl, rfl, rfl, rfl, rfl, rfl, rfl, rfl, rfl, fun _ => tick_start_of_illegal⟩

/-- Settles O6: the write is run as one step, and the decoder rejects the word (`exists_illegal_iff`). -/
theorem illegalWordCompletesWithCodeNine : Obligations.IllegalWordCompletesWithCodeNine := by
  intro s w rest hadd hmul hinc hhash henc hdec hp hb hs
  obtain ⟨why, hw⟩ := exists_illegal_iff.mpr (forall_ne_encode_iff.mpr ⟨hadd, hmul, hinc, hhash, henc, hdec⟩)
  exact (step_writeCmd hp).trans ((hostWriteCmd_of_idle_whole (s := { s with pending := rest }) hb hs).trans
    (runCommand_of_illegal hw))

/-! ## WAIT and the core left to itself -/

theorem coreStep_of_idle (hb : coreBusy s = false) : coreStep P s = .next s := if_neg (by simp [hb])

theorem coreStep_of_busy (hb : coreBusy s = true) : coreStep P s = tick P s := if_pos hb

/-- A host that polls STATUS sees DONE only on a core that is not busy (R46, R97). -/
theorem done_hostRead32_status : Status.done (hostRead32 .status s) = (!coreBusy s && Status.done s.status) := by
  simp only [hostRead32]
  split
  · next hb => rw [hb]; rfl
  · next hb => rw [Bool.eq_false_iff.mpr hb]; rfl

/-- A WAIT that DONE does not end stays the next action: the core is as left to itself from the same state. -/
theorem step_wait (h : s.pending = .wait :: rest) : step s =
    if coreBusy s = false ∧ Status.done s.status = true then .next { s with pending := rest }
    else coreStep Config.params s := by
  have hback : { s with pending := .wait :: rest } = s := by rw [← h]
  have hdone : Status.done (hostRead32 .status { s with pending := rest }) =
      (!coreBusy s && Status.done s.status) := done_hostRead32_status
  rw [step_of_pending h]
  simp only [hostAction, hdone, hback, Bool.and_eq_true, Bool.not_eq_true']

theorem step_pause (h : s.pending = .pause :: rest) : step s = coreStep Config.params { s with pending := rest } :=
  step_of_pending h

theorem step_of_pending_nil (h : s.pending = []) : step s = coreStep Config.params s := by rw [step, h]

end

/-- Settles O45: `step_wait`, `step_pause` and `step_of_pending_nil`, with what a core left to itself does. -/
theorem waitEndsWhenDone : Obligations.WaitEndsWhenDone := by
  refine ⟨fun s rest hp => ⟨fun hb hd => ?_, fun hb hd => ?_, fun hb => ?_⟩,
    fun s rest hp => ⟨fun hb => ?_, fun hb => ?_⟩, fun s hp => ⟨fun hb => ?_, fun hb => ?_⟩⟩
  · rw [step_wait hp, if_pos ⟨hb, hd⟩]
  · rw [step_wait hp, if_neg (by simp [hd]), coreStep_of_idle hb]
  · rw [step_wait hp, if_neg (by simp [hb]), coreStep_of_busy hb]
  · exact (step_pause hp).trans (coreStep_of_idle hb)
  · exact (step_pause hp).trans (coreStep_of_busy hb)
  · exact (step_of_pending_nil hp).trans (coreStep_of_idle hb)
  · exact (step_of_pending_nil hp).trans (coreStep_of_busy hb)

end Sys2Proof.Machine
end

section
/-!
PROOFS. CommandFrame and OnlyListedOperandsMatter: what a command leaves unchanged, and that it reads no more than the
operands listed for it.
-/

namespace Sys2Proof.Machine

variable {i : Instr} {s t : State}

/-- Settles O34: a command that completes ends in `completed` of the state it began in, with the values of one of the
four ways of `exec_next_cases`. -/
theorem commandFrame : Obligations.CommandFrame := by
  intro i s t h
  obtain ⟨st, res, tag, len, dout, rq, rfl, hcases⟩ := exec_next_cases h
  refine ⟨rfl, rfl, fun _ => rfl, fun _ => rfl, fun _ => rfl, fun _ => rfl, rfl, rfl, rfl, rfl, ?_⟩
  simp only [completed]
  obtain ⟨-, -, -, -, rfl, rfl, rfl, rfl⟩ | ⟨hprim, -, rfl, rfl, rfl, -⟩ | ⟨rfl, -, rfl, -⟩ | ⟨rfl, -, rfl, rfl, -⟩ :=
    hcases
  · exact ⟨fun _ => rfl, fun _ => rfl, fun _ _ => ⟨rfl, rfl⟩⟩
  · refine ⟨fun hsession => ?_, fun _ => rfl, fun _ _ => ⟨rfl, rfl⟩⟩
    obtain rfl | rfl := hsession <;> simp at hprim
  · exact ⟨fun _ => rfl, fun hne => absurd rfl hne, fun hne => absurd rfl hne⟩
  · exact ⟨fun _ => rfl, fun _ => rfl, fun _ hne => absurd rfl hne⟩

/-! ## What admission and sampling read -/

theorem readBytes_of_sameBytes {m m' : Memory} {n : Nat} (b : Buf) (h : SameBytes n m m') :
    Memory.readBytes b m 0 n = Memory.readBytes b m' 0 n :=
  Memory.readBytes_congr b m m' n 0 fun j _ hj => h j (by omega)

section

variable (haadLen : s.regs.aadLen = t.regs.aadLen) (hdataLen : s.regs.dataLen = t.regs.dataLen)

include haadLen hdataLen

theorem admitGhash_congr (P : Params) : admitGhash P s.regs = admitGhash P t.regs := by
  simp only [admitGhash, haadLen, hdataLen]

theorem admitGcm_congr (P : Params) (hkeyLen : s.regs.keyLen = t.regs.keyLen)
    (hnonceLen : s.regs.nonceLen = t.regs.nonceLen) : admitGcm P s.regs = admitGcm P t.regs := by
  simp only [admitGcm, admitConfiguration, admitOverflow, haadLen, hdataLen, hkeyLen, hnonceLen]

variable (haad : SameBytes s.regs.aadLen.toNat s.bufs.aad t.bufs.aad)
  (hdin : SameBytes s.regs.dataLen.toNat s.bufs.din t.bufs.din)

include haad hdin

theorem sampleGhash_congr : sampleGhash s.regs s.bufs = sampleGhash t.regs t.bufs := by
  rw [sampleGhash, sampleGhash, ← haadLen, ← hdataLen, readBytes_of_sameBytes .aad haad,
    readBytes_of_sameBytes .din hdin]

/-! ## Each command that reads buffers -/

theorem sameResult_ghash (hopa : s.regs.opa = t.regs.opa) : SameResult (exec .ghash s) (exec .ghash t) := by
  show SameResult (ghashWith Config.params s) (ghashWith Config.params t)
  rw [ghashWith_eq, ghashWith_eq]
  exact sameResult_admittedRun (admitGhash_congr haadLen hdataLen _) (sampleGhash_congr haadLen hdataLen haad hdin)
    (fun _ => sameResult_completed rfl rfl) fun _ => sameResult_completed (by rw [hopa]) rfl

variable (hkeyLen : s.regs.keyLen = t.regs.keyLen) (hnonceLen : s.regs.nonceLen = t.regs.nonceLen)
  (hkey : SameBytes s.regs.keyLen.toNat s.bufs.key t.bufs.key)
  (hnonce : SameBytes s.regs.nonceLen.toNat s.bufs.nonce t.bufs.nonce)

include hkeyLen hnonceLen hkey hnonce

theorem sampleGcm_congr : sampleGcm s.regs s.bufs = sampleGcm t.regs t.bufs := by
  rw [sampleGcm, sampleGcm, ← hkeyLen, ← hnonceLen, readBytes_of_sameBytes .key hkey,
    readBytes_of_sameBytes .nonce hnonce, sampleGhash_congr haadLen hdataLen haad hdin]

theorem sameResult_gcmEnc : SameResult (exec .gcmEnc s) (exec .gcmEnc t) := by
  show SameResult (gcmEncWith Config.params s) (gcmEncWith Config.params t)
  rw [gcmEncWith_eq, gcmEncWith_eq]
  exact sameResult_admittedRun (admitGcm_congr haadLen hdataLen _ hkeyLen hnonceLen)
    (sampleGcm_congr haadLen hdataLen haad hdin hkeyLen hnonceLen hkey hnonce)
    (fun _ => sameResult_completed rfl rfl) fun _ => sameResult_completed rfl hdataLen

theorem sameResult_gcmDec (htagIn : s.regs.tagIn = t.regs.tagIn) :
    SameResult (exec .gcmDec s) (exec .gcmDec t) := by
  show SameResult (gcmDecWith Config.params s) (gcmDecWith Config.params t)
  rw [gcmDecWith_eq, gcmDecWith_eq]
  exact sameResult_admittedRun (admitGcm_congr haadLen hdataLen _ hkeyLen hnonceLen)
    (sampleGcm_congr haadLen hdataLen haad hdin hkeyLen hnonceLen hkey hnonce)
    (fun _ => sameResult_completed rfl rfl) fun op => sameResult_decryptCompletion op hdataLen htagIn

end

/-- Settles O37: a primitive's result is a function of OPA and OPB, and the other commands' of what admission and
sampling read. -/
theorem onlyListedOperandsMatter : Obligations.OnlyListedOperandsMatter := by
  intro s t
  refine ⟨fun ha hb => sameResult_completed (by rw [ha, hb]) rfl,
    fun ha hb => sameResult_completed (by simp only [runMultiplier_hidden, ha, hb]) rfl,
    fun ha => sameResult_completed (by rw [ha]) rfl, fun haadLen hdataLen haad hdin =>
    ⟨sameResult_ghash haadLen hdataLen haad hdin, fun hkeyLen hnonceLen hkey hnonce => ⟨?_, ?_⟩⟩⟩
  · exact sameResult_gcmEnc haadLen hdataLen haad hdin hkeyLen hnonceLen hkey hnonce
  · exact sameResult_gcmDec haadLen hdataLen haad hdin hkeyLen hnonceLen hkey hnonce

end Sys2Proof.Machine
end

section
/-!
PROOFS. MultiplierLoopKeepsReducedProducts, MultiplierIteration, FieldAdditionIsXor, OneIsTheIdentity and
FieldMultiplicationLaws: the multiplier's registers as reduced polynomials, and from the product the field: the Field
Elements as residues modulo the reduction polynomial, which is irreducible.
-/

namespace Sys2Proof.Machine

open Polynomial

/-! ## The multiplier, iteration by iteration -/

theorem mulStep_z (b : Block) (m : Multiplier) :
    (mulStep b m).z = m.z ^^^ (if b.getLsbD (127 - m.mi.toNat) then m.v else 0) := by
  unfold mulStep
  split <;> simp

theorem timesX_eq (v : Block) : timesX v = (v >>> 1) ^^^ (if v.getLsbD 0 then rConst else 0) := by
  unfold timesX
  split <;> simp

theorem mulSteps_mi (a b : Block) (n : ℕ) : (mulSteps b n (mulLoad a)).mi = BitVec.ofNat 8 n := by
  induction n with
  | zero => rfl
  | succ n ih => rw [mulSteps_succ, BitVec.ofNat_add, ← ih]; rfl

theorem polyOf_mulSteps_v (a b : Block) (n : ℕ) :
    polyOf (mulSteps b n (mulLoad a)).v = (polyOf a * X ^ n) %ₘ reductionPoly := by
  induction n with
  | zero => rw [pow_zero, mul_one, polyOf_modByMonic]; rfl
  | succ n ih =>
    calc polyOf (mulSteps b (n + 1) (mulLoad a)).v
      _ = polyOf (timesX (mulSteps b n (mulLoad a)).v) := by rw [mulSteps_succ]; rfl
      _ = (polyOf a * X ^ (n + 1)) %ₘ reductionPoly := by
        rw [polyOf_timesX, ih, modByMonic_mul_modByMonic, pow_succ, mul_assoc]

theorem polyOf_mulSteps_z (a b : Block) {n : ℕ} (hn : n ≤ 128) :
    polyOf (mulSteps b n (mulLoad a)).z =
      (polyOf a * ∑ k ∈ Finset.range n, if b.getLsbD (127 - k) then X ^ k else 0) %ₘ reductionPoly := by
  induction n with
  | zero => rw [Finset.sum_range_zero, mul_zero, zero_modByMonic, ← polyOf_zero]; rfl
  | succ n ih =>
    have hmi : (mulSteps b n (mulLoad a)).mi.toNat = n := by
      rw [mulSteps_mi, BitVec.toNat_ofNat, Nat.mod_eq_of_lt (by omega)]
    rw [mulSteps_succ, mulStep_z, hmi, polyOf_xor, ih (by omega), Finset.sum_range_succ, mul_add, add_modByMonic]
    split
    · rw [polyOf_mulSteps_v]
    · rw [mul_zero, zero_modByMonic, polyOf_zero]

/-- The product of the polynomials, reduced (R115): the multiplier's Z when no bit of `b` is left. -/
theorem polyOf_gfMul (a b : Block) : polyOf (gfMul a b) = (polyOf a * polyOf b) %ₘ reductionPoly :=
  polyOf_mulSteps_z a b le_rfl

/-- Settles O10: V by `polyOf_mulSteps_v` and Z by `polyOf_mulSteps_z`, each an induction over the iterations. -/
theorem multiplierLoopKeepsReducedProducts : Obligations.MultiplierLoopKeepsReducedProducts := by
  intro a b p q hp hq
  rw [standsFor_iff] at hp hq
  rw [hp, hq]
  refine ⟨fun i hi => ⟨?_, ?_⟩, ?_⟩
  · rw [standsFor_iff, polyOf_mulSteps_v]
  · rw [standsFor_iff, polyOf_mulSteps_z a b hi]
  · rw [standsFor_iff, polyOf_gfMul]

/-- Settles O9: the equations of an iteration, and the counter after 128 of them (`mulSteps_mi`). -/
theorem multiplierIteration : Obligations.MultiplierIteration := by
  refine ⟨fun b m hm => ⟨mulStep_z b m, timesX_eq m.v, ?_⟩, fun _ => rfl, fun a b => ⟨mulSteps_mi a b 128, rfl⟩,
    fun s m => ⟨fun _ => rfl, fun _ => rfl, fun _ => rfl, fun _ _ => rfl⟩⟩
  show (m.mi + 1).toNat = m.mi.toNat + 1
  bv_omega

/-- Settles O7: `gfAdd` is the xor of bit vectors, with the library's laws. -/
theorem fieldAdditionIsXor : Obligations.FieldAdditionIsXor := fun a b c =>
  ⟨fun _ => BitVec.getLsbD_xor, BitVec.xor_comm a b, BitVec.xor_assoc a b c, BitVec.xor_self, BitVec.xor_zero⟩

/-! ## Field Elements as residues -/

/-- The residue class a Field Element stands for. -/
noncomputable def residueOf (v : Block) : AdjoinRoot reductionPoly := AdjoinRoot.mk reductionPoly (polyOf v)

theorem residueOf_xor (a b : Block) : residueOf (a ^^^ b) = residueOf a + residueOf b := by
  simp only [residueOf, polyOf_xor, map_add]

theorem residueOf_xor_eq_sub (a b : Block) : residueOf (a ^^^ b) = residueOf a - residueOf b :=
  eq_sub_of_add_eq (by rw [← residueOf_xor, BitVec.xor_assoc, BitVec.xor_self, BitVec.xor_zero])

theorem mk_modByMonic (p : (ZMod 2)[X]) :
    AdjoinRoot.mk reductionPoly (p %ₘ reductionPoly) = AdjoinRoot.mk reductionPoly p := by
  conv_rhs => rw [← modByMonic_add_div p reductionPoly, map_add, map_mul, AdjoinRoot.mk_self, zero_mul, add_zero]

theorem residueOf_gfMul (a b : Block) : residueOf (gfMul a b) = residueOf a * residueOf b := by
  simp only [residueOf, polyOf_gfMul, mk_modByMonic, map_mul]

theorem residueOf_eq_zero_iff {v : Block} : residueOf v = 0 ↔ v = 0#128 := by
  rw [residueOf, AdjoinRoot.mk_eq_zero, ← modByMonic_eq_zero_iff_dvd reductionPoly_monic, polyOf_modByMonic,
    ← polyOf_zero]
  exact ⟨polyOf_injective, congrArg polyOf⟩

theorem residueOf_injective : Function.Injective residueOf := by
  intro a b h
  rw [← BitVec.xor_eq_zero_iff, ← residueOf_eq_zero_iff, residueOf_xor_eq_sub, h, sub_self]

/-- Bit 127 − k alone is x^k (R9). -/
theorem polyOf_twoPow {k : ℕ} (hk : k < 128) : polyOf (BitVec.twoPow 128 (127 - k)) = X ^ k := by
  ext j
  rw [polyOf_coeff, coeff_X_pow, BitVec.getLsbD_twoPow]
  by_cases hj : j = k
  · have : 127 - k < 128 := by omega
    simp [hj, hk, this]
  · rw [if_neg hj, if_neg]
    simp only [Bool.and_eq_true, decide_eq_true_eq]
    omega

theorem residueOf_fieldOne : residueOf fieldOne = 1 := by
  rw [residueOf, show fieldOne = BitVec.twoPow 128 (127 - 0) by decide, polyOf_twoPow (by decide), pow_zero, map_one]

theorem gfMul_comm (a b : Block) : gfMul a b = gfMul b a :=
  residueOf_injective (by rw [residueOf_gfMul, residueOf_gfMul, mul_comm])

theorem gfMul_assoc (a b c : Block) : gfMul (gfMul a b) c = gfMul a (gfMul b c) :=
  residueOf_injective (by simp only [residueOf_gfMul, mul_assoc])

theorem gfMul_xor_left (a b c : Block) : gfMul (a ^^^ b) c = gfMul a c ^^^ gfMul b c :=
  residueOf_injective (by simp only [residueOf_gfMul, residueOf_xor, add_mul])

theorem gfMul_xor_right (a b c : Block) : gfMul a (b ^^^ c) = gfMul a b ^^^ gfMul a c := by
  rw [gfMul_comm, gfMul_xor_left, gfMul_comm b, gfMul_comm c]

theorem gfMul_zero (a : Block) : gfMul a 0#128 = 0#128 := by
  rw [← residueOf_eq_zero_iff, residueOf_gfMul, residueOf_eq_zero_iff.mpr rfl, mul_zero]

theorem zero_gfMul (a : Block) : gfMul 0#128 a = 0#128 := (gfMul_comm 0 a).trans (gfMul_zero a)

theorem gfMul_fieldOne (a : Block) : gfMul a fieldOne = a :=
  residueOf_injective (by rw [residueOf_gfMul, residueOf_fieldOne, mul_one])

theorem fieldOne_gfMul (a : Block) : gfMul fieldOne a = a := (gfMul_comm _ a).trans (gfMul_fieldOne a)

/-- Settles O12: ONE is the residue 1; the integer 1 times ONE is not ONE. -/
theorem oneIsTheIdentity : Obligations.OneIsTheIdentity := by
  refine ⟨fun a => ⟨gfMul_fieldOne a, fieldOne_gfMul a⟩, (standsFor_iff _ _).mpr ?_, (standsFor_iff _ _).mpr ?_,
    fieldOne, ?_⟩
  · exact (polyOf_twoPow (show 0 < 128 by decide)).symm
  · exact (polyOf_twoPow (show 127 < 128 by decide)).symm
  · rw [fieldOne_gfMul]; decide

/-! ## The reduction polynomial is irreducible

Rabin's test at degree 128, whose one prime divisor is 2: the polynomial divides x^(2^128) − x, and x^(2^64) − x is
invertible modulo it. The powers of x are squarings in the multiplier.
-/

/-- The Field Element squared. -/
def gfSquare (v : Block) : Block := gfMul v v

/-- The polynomial x (R9). -/
def fieldX : Block := 0x40000000000000000000000000000000#128

theorem residueOf_gfSquare_iterate (v : Block) (n : ℕ) : residueOf (gfSquare^[n] v) = residueOf v ^ 2 ^ n := by
  induction n with
  | zero => rw [pow_zero, pow_one]; rfl
  | succ n ih => rw [Function.iterate_succ_apply', gfSquare, residueOf_gfMul, ih, pow_succ 2, pow_mul, sq]

theorem residueOf_fieldX : residueOf fieldX = AdjoinRoot.mk reductionPoly X := by
  rw [residueOf, show fieldX = BitVec.twoPow 128 (127 - 1) by decide, polyOf_twoPow (by decide), pow_one]

theorem gfSquare_iterate_64_fieldX : gfSquare^[64] fieldX = 0x6f9945a9e519a7229d4c1ad657f8a686#128 := by
  decide +kernel

theorem gfSquare_iterate_128_fieldX : gfSquare^[128] fieldX = fieldX := by
  rw [show 128 = 64 + 64 from rfl, Function.iterate_add_apply, gfSquare_iterate_64_fieldX]
  decide +kernel

/-- The inverse of x^(2^64) − x modulo the reduction polynomial. -/
def gapInverse : Block := 0x180da934bf53158251c13dbb149f5279#128

theorem gfMul_gapInverse : gfMul (gfSquare^[64] fieldX ^^^ fieldX) gapInverse = fieldOne := by
  rw [gfSquare_iterate_64_fieldX]
  decide +kernel

theorem mk_X_pow_card_pow (n : ℕ) :
    AdjoinRoot.mk reductionPoly (X ^ Nat.card (ZMod 2) ^ n) = residueOf (gfSquare^[n] fieldX) := by
  rw [residueOf_gfSquare_iterate, residueOf_fieldX, Nat.card_zmod, map_pow]

theorem reductionPoly_dvd_X_pow_sub_X {n : ℕ} (h : gfSquare^[n] fieldX = fieldX) :
    reductionPoly ∣ X ^ Nat.card (ZMod 2) ^ n - X := by
  rw [← AdjoinRoot.mk_eq_mk, mk_X_pow_card_pow, h, residueOf_fieldX]

theorem isCoprime_reductionPoly_X_pow_sub_X : IsCoprime reductionPoly (X ^ Nat.card (ZMod 2) ^ 64 - X) := by
  have hone : AdjoinRoot.mk reductionPoly ((X ^ Nat.card (ZMod 2) ^ 64 - X) * polyOf gapInverse) =
      AdjoinRoot.mk reductionPoly 1 := by
    rw [map_mul, map_sub, mk_X_pow_card_pow, ← residueOf_fieldX, ← residueOf_xor_eq_sub, map_one,
      ← residueOf_fieldOne, ← gfMul_gapInverse, residueOf_gfMul]
    rfl
  obtain ⟨c, hc⟩ := AdjoinRoot.mk_eq_mk.mp hone
  exact ⟨-c, polyOf gapInverse, by linear_combination hc⟩

theorem reductionPoly_natDegree : reductionPoly.natDegree = 128 := natDegree_eq_of_degree_eq_some reductionPoly_degree

theorem irreducible_reductionPoly : Irreducible reductionPoly := by
  obtain ⟨f, hf, hfr⟩ :=
    exists_irreducible_of_natDegree_ne_zero (f := reductionPoly) (by simp [reductionPoly_natDegree])
  have hdeg : f.natDegree ∣ 128 := hf.natDegree_dvd_of_dvd_X_pow_card_pow_sub_X
    (dvd_trans (b := reductionPoly) hfr (reductionPoly_dvd_X_pow_sub_X gfSquare_iterate_128_fieldX))
  obtain ⟨m, hm, hfm⟩ := (Nat.dvd_prime_pow (m := 7) Nat.prime_two).mp hdeg
  obtain hlt | rfl := hm.lt_or_eq
  · have h64 : f.natDegree ∣ 64 := hfm ▸ pow_dvd_pow 2 (Nat.le_of_lt_succ hlt)
    exact absurd (isCoprime_reductionPoly_X_pow_sub_X.isUnit_of_dvd' hfr
      (hf.natDegree_dvd_iff_dvd_X_pow_card_pow_sub_X.mp h64)) hf.not_isUnit
  · have hle : reductionPoly.natDegree ≤ f.natDegree := (reductionPoly_natDegree.trans hfm.symm).le
    exact (associated_of_dvd_of_natDegree_le hfr reductionPoly_monic.ne_zero hle).irreducible hf

/-! ## Inverses -/

theorem gfMul_eq_zero {a b : Block} (h : gfMul a b = 0#128) : a = 0#128 ∨ b = 0#128 := by
  have : Fact (Irreducible reductionPoly) := ⟨irreducible_reductionPoly⟩
  rw [← residueOf_eq_zero_iff, residueOf_gfMul, mul_eq_zero] at h
  exact h.imp residueOf_eq_zero_iff.mp residueOf_eq_zero_iff.mp

theorem gfMul_injective {a : Block} (ha : a ≠ 0#128) : Function.Injective (gfMul a) := by
  intro b c h
  have hz : gfMul a (b ^^^ c) = 0#128 := by rw [gfMul_xor_right, h, BitVec.xor_self]
  exact BitVec.xor_eq_zero_iff.mp ((gfMul_eq_zero hz).resolve_left ha)

/-- The inverse: multiplication by `a` is injective on the finitely many Field Elements, so it takes the value ONE. -/
theorem exists_gfMul_eq_fieldOne {a : Block} (ha : a ≠ 0#128) : ∃ b, gfMul a b = fieldOne :=
  Finite.surjective_of_injective (gfMul_injective ha) _

/-- Settles O11: Field Elements multiply and add as their residues do, and the reduction polynomial is irreducible. -/
theorem fieldMultiplicationLaws : Obligations.FieldMultiplicationLaws :=
  ⟨gfMul_comm, gfMul_assoc, gfMul_xor_left, gfMul_xor_right, fun a => ⟨gfMul_zero a, zero_gfMul a⟩, gfMul_fieldOne,
    fun _ => exists_gfMul_eq_fieldOne⟩

end Sys2Proof.Machine
end

section
/-!
PROOFS. GfAddPublishesXor and GfMulPublishesProduct: the completed state of the two field commands.
-/

namespace Sys2Proof.Machine

theorem exec_gfAdd (s : State) : exec .gfAdd s =
    .next (completed 0x00000001#32 0x00000002#32 (s.regs.opa ^^^ s.regs.opb) 0 0 [] [] s) := rfl

theorem exec_gfMul (s : State) : exec .gfMul s =
    .next (completed 0x00000002#32 0x00000002#32 (gfMul s.regs.opa s.regs.opb) 0 0 [] [] s) := rfl

/-- Settles O8: the completed state, with the xor of each case of the operands. -/
theorem gfAddPublishesXor : Obligations.GfAddPublishesXor := by
  refine ⟨decode_encode .gfAdd, exec_gfAdd, fun s h => ?_, fun s h => ?_, fun s ha hb => ?_⟩
  · rw [exec_gfAdd, h, BitVec.xor_self]; rfl
  · simp [exec_gfAdd, h]
  · rw [exec_gfAdd, ha, hb]; rfl

/-- Settles O13: the completed state, the laws of 0 and ONE, and the table's products of two constants evaluated. -/
theorem gfMulPublishesProduct : Obligations.GfMulPublishesProduct := by
  refine ⟨decode_encode .gfMul, exec_gfMul, fun a => ⟨gfMul_zero a, zero_gfMul a, gfMul_fieldOne a⟩,
    gfMul_fieldOne _, ?_⟩
  decide +kernel

end Sys2Proof.Machine
end

section
/-!
PROOFS. GhashAbsorbsInOrder, GhashIsPolynomialInSubkey and GhashEdgeCases: GHASH as one chain over one list of blocks,
and the chain as a polynomial in the subkey.
-/

namespace Sys2Proof.Machine

/-! ## The chain over the blocks -/

/-- The length block holds both bit lengths whole when they fit 64 bits (R132, R133). -/
theorem lenBlockOf_toNat {a c : List Byte} (ha : a.length ≤ 2 ^ 61 - 1) (hc : c.length ≤ 2 ^ 61 - 1) :
    (lenBlockOf a c).toNat = 8 * a.length * 2 ^ 64 + 8 * c.length := by
  have bits : ∀ n : Nat, n ≤ 2 ^ 61 - 1 → (bitLen (BitVec.ofNat 64 n)).toNat = 8 * n := by
    intro n hn
    simp only [bitLen, BitVec.toNat_mul, BitVec.ofNat_eq_ofNat, BitVec.toNat_ofNat]
    omega
  rw [lenBlockOf, lenBlock, BitVec.toNat_append, bits _ ha, bits _ hc, ← Nat.shiftLeft_add_eq_or_of_lt (by omega),
    Nat.shiftLeft_eq]

/-- The blocks GHASH absorbs, in order (R134). -/
def ghashBlocks (a c : List Byte) : List Block := segmentBlocks a ++ segmentBlocks c ++ [lenBlockOf a c]

theorem ghashBlocks_length (a c : List Byte) :
    (ghashBlocks a c).length = (a.length + 15) / 16 + (c.length + 15) / 16 + 1 := by
  simp only [ghashBlocks, List.length_append, segmentBlocks_length, blockCount, List.length_singleton]

theorem ghash_eq_absorbAll (h : Block) (a c : List Byte) : ghash h a c = absorbAll h 0 (ghashBlocks a c) := by
  simp only [ghash, ghashBlocks, absorbAll, List.foldl_append, List.foldl_cons, List.foldl_nil]

/-- Settles O20: the chain over `ghashBlocks`, whose last block is the length block. -/
theorem ghashAbsorbsInOrder : Obligations.GhashAbsorbsInOrder := fun h a c ha hc =>
  ⟨lenBlockOf a c, lenBlockOf_toNat ha hc, ghash_eq_absorbAll h a c, ghashBlocks_length a c⟩

/-! ## The chain as a polynomial in the subkey -/

theorem gfPow_succ' (h : Block) (n : Nat) : gfPow h (n + 1) = gfMul h (gfPow h n) := gfMul_comm _ _

/-- Horner's rule: every block is multiplied by the subkey once for itself and once for each block behind it. -/
theorem absorbAll_eq_gfSum (h : Block) (bs : List Block) : ∀ x : Block,
    absorbAll h x bs =
      gfMul x (gfPow h bs.length) ^^^ gfSum (bs.mapIdx fun i b => gfMul b (gfPow h (bs.length - i))) := by
  induction bs with
  | nil => intro x; exact ((BitVec.xor_zero).trans (gfMul_fieldOne x)).symm
  | cons b bs ih =>
    intro x
    have hsum : gfSum ((b :: bs).mapIdx fun i c => gfMul c (gfPow h ((b :: bs).length - i))) =
        gfMul b (gfPow h (bs.length + 1)) ^^^ gfSum (bs.mapIdx fun i c => gfMul c (gfPow h (bs.length - i))) := by
      simp [gfSum]
    calc absorbAll h x (b :: bs)
      _ = gfMul (gfMul (x ^^^ b) h) (gfPow h bs.length) ^^^
          gfSum (bs.mapIdx fun i c => gfMul c (gfPow h (bs.length - i))) := ih _
      _ = gfMul x (gfPow h (bs.length + 1)) ^^^ gfMul b (gfPow h (bs.length + 1)) ^^^
          gfSum (bs.mapIdx fun i c => gfMul c (gfPow h (bs.length - i))) := by
        rw [gfMul_assoc, ← gfPow_succ', gfMul_xor_left]
      _ = _ := by rw [hsum, BitVec.xor_assoc, List.length_cons]

/-- Settles O21: Horner's rule on the chain, which begins at zero. -/
theorem ghashIsPolynomialInSubkey : Obligations.GhashIsPolynomialInSubkey := by
  refine fun h a c ha hc => ⟨lenBlockOf a c, lenBlockOf_toNat ha hc, ?_⟩
  rw [ghash_eq_absorbAll, absorbAll_eq_gfSum, ← ghashBlocks_length]
  exact (congrArg (· ^^^ _) (zero_gfMul _)).trans BitVec.zero_xor

/-! ## Edge cases -/

/-- No data leaves the length block alone, and that is 0. -/
theorem ghash_nil (h : Block) : ghash h [] [] = 0#128 := by
  have hlen : lenBlockOf [] [] = 0#128 := by decide
  show gfMul (0#128 ^^^ lenBlockOf [] []) h = 0#128
  rw [hlen, BitVec.xor_zero, zero_gfMul]

/-- The last multiplication is by the subkey. -/
theorem zero_ghash (a c : List Byte) : ghash 0#128 a c = 0#128 := gfMul_zero _

/-- Settles O22: under the subkey ONE, a block of zeros as associated data and as data: the length blocks differ. -/
theorem ghashEdgeCases : Obligations.GhashEdgeCases := by
  refine ⟨ghash_nil, zero_ghash, fieldOne, zeros 16, [], rfl, ?_⟩
  decide +kernel

end Sys2Proof.Machine
end

section
/-!
PROOFS. GhashPublishesHash and GhashAdmissionErrors: the admission checks of GHASH case by case, and the command's
completion in each case.
-/

namespace Sys2Proof.Machine

variable {P : Params} {regs : HostRegs} {s t : State}

/-! ## The admission checks -/

theorem exceeds_iff {len : Nat} {cap : Option Nat} : exceeds len cap = true ↔ ∃ m, cap = some m ∧ len > m := by
  cases cap <;> simp [exceeds]

theorem admitGhash_of_long_aad (ha : regs.aadLen.toNat > 2 ^ 61 - 1) : admitGhash P regs = some .ovfAadLen :=
  if_pos ha

theorem admitGhash_of_long_data (ha : regs.aadLen.toNat ≤ 2 ^ 61 - 1) (hd : regs.dataLen.toNat > 2 ^ 61 - 1) :
    admitGhash P regs = some .ovfDataLen :=
  (if_neg ha.not_gt).trans (if_pos hd)

theorem admitGhash_of_fitting (ha : regs.aadLen.toNat ≤ 2 ^ 61 - 1) (hd : regs.dataLen.toNat ≤ 2 ^ 61 - 1) :
    admitGhash P regs = if (exceeds regs.aadLen.toNat P.capAad || exceeds regs.dataLen.toNat P.capData) = true
      then some .ovfCapacity else none :=
  (if_neg ha.not_gt).trans (if_neg hd.not_gt)

theorem admitGhash_codes {c : ErrCode} (h : admitGhash P regs = some c) :
    c = .ovfAadLen ∨ c = .ovfDataLen ∨ c = .ovfCapacity := by
  unfold admitGhash at h
  split_ifs at h
  · exact .inl (Option.some.inj h).symm
  · exact .inr (.inl (Option.some.inj h).symm)
  · exact .inr (.inr (Option.some.inj h).symm)

/-! ## The command -/

theorem ghashWith_of_admitted {op : GhashOperands} (ha : admitGhash P s.regs = none)
    (hs : sampleGhash s.regs s.bufs = .ok op) :
    ghashWith P s = .next (completed 0x00000004#32 0x00000002#32 (ghash s.regs.opa op.aad op.data) 0 0 [] [] s) := by
  rw [ghashWith_eq, ha, hs]
  rfl

theorem ghashWith_of_rejected {c : ErrCode} (ha : admitGhash P s.regs = some c) :
    ghashWith P s = .next (completed 0x00000004#32 (Status.failed c) 0 0 0 [] [] s) := by
  rw [ghashWith_eq, ha]
  rfl

theorem exec_ghash_of_session {op : GhashOperands} (h : GhashSession s op) : exec .ghash s =
    .next (completed 0x00000004#32 0x00000002#32 (ghash s.regs.opa op.aad op.data) 0 0 [] [] s) :=
  ghashWith_of_admitted (admitGhash_of_lengths h.aadFits h.dataFits) (sampleGhash_of_session h)

/-- With no byte to read, any buffers hold the operands. -/
theorem ghashSession_nil (ha : s.regs.aadLen = 0) (hd : s.regs.dataLen = 0) : GhashSession s ⟨[], []⟩ where
  aadFits  := by simp [ha]
  dataFits := by simp [hd]
  aadLen   := by simp [ha]
  dataLen  := by simp [hd]
  aad      := by simp
  data     := by simp

/-- The error completion is the one for which STATUS has ERR, and its code is the check's. -/
theorem ghashWith_err_iff (h : ghashWith P s = .next t) :
    Status.err t.status = true ↔ ∃ c, admitGhash P s.regs = some c ∧ t.status = Status.failed c := by
  obtain ⟨c, hc, e⟩ | ⟨-, r, -, e⟩ | ⟨hn, op, -, e⟩ := ghashWith_cases P s <;> rw [e] at h <;> cases h
  · obtain ⟨-, -, herr, -⟩ := Status.failed_fields c
    exact iff_of_true herr ⟨c, hc, rfl⟩
  · simp [completed, Status.succeeded_fields, hn]

/-- Settles O23: the run on a session's operands, and the codes of the admission checks. -/
theorem ghashPublishesHash : Obligations.GhashPublishesHash := by
  refine ⟨decode_encode .ghash, fun s op => exec_ghash_of_session, fun s ha hd => ?_, fun s t h herr => ?_, ?_⟩
  · rw [exec_ghash_of_session (ghashSession_nil ha hd), ghash_nil]
    rfl
  · obtain ⟨c, hc, hst⟩ := (ghashWith_err_iff h).mp herr
    obtain ⟨-, -, -, -, hcode, -⟩ := Status.failed_fields c
    rw [hst, hcode]
    obtain rfl | rfl | rfl := admitGhash_codes hc <;> decide
  · decide +kernel

/-- Settles O24: each check that fails, behind the checks before it, ends the command; with none, there is no error. -/
theorem ghashAdmissionErrors : Obligations.GhashAdmissionErrors := by
  refine ⟨fun _ => rfl, fun P s => ⟨fun ha => ?_, fun ha hd => ?_, fun ha hd hcap => ?_, fun ha hd hA hD t h => ?_⟩⟩
  · exact ghashWith_of_rejected (admitGhash_of_long_aad ha)
  · exact ghashWith_of_rejected (admitGhash_of_long_data ha hd)
  · refine ghashWith_of_rejected ((admitGhash_of_fitting ha hd).trans (if_pos ?_))
    rwa [Bool.or_eq_true, exceeds_iff, exceeds_iff]
  · have hnone : admitGhash P s.regs = none := by
      rw [admitGhash_of_fitting ha hd, if_neg]
      rw [Bool.or_eq_true, exceeds_iff, exceeds_iff]
      rintro (⟨m, hm, hlt⟩ | ⟨m, hm, hlt⟩)
      · exact (hA m hm).not_gt hlt
      · exact (hD m hm).not_gt hlt
    simp [Bool.eq_false_iff, ghashWith_err_iff h, hnone]

end Sys2Proof.Machine
end

section
/-!
PROOFS. Inc32PublishesIncrement, CounterClosedForm, CounterBlocksDistinct and InitialCounterBlock: the increment, its
repetition, and the block the counter starts from.
-/

namespace Sys2Proof.Machine

/-! ## The increment -/

theorem exec_inc32 (s : State) : exec .inc32 s =
    .next (completed 0x00000003#32 0x00000002#32 (inc32 s.regs.opa) 0 0 [] [] s) := rfl

theorem inc32_suffix_toNat (y : Block) :
    ((inc32 y).extractLsb' 0 32).toNat = ((y.extractLsb' 0 32).toNat + 1) % 2 ^ 32 := by
  rw [inc32_suffix, BitVec.toNat_add]
  rfl

/-- Settles O14: the two fields of the increment, and the completed state, evaluated at each constant operand. -/
theorem inc32PublishesIncrement : Obligations.Inc32PublishesIncrement := by
  refine ⟨decode_encode .inc32, fun y => ⟨inc32_prefix y, inc32_suffix_toNat y⟩, exec_inc32,
    fun s h => ?_, fun s h => ?_⟩
  · rw [exec_inc32, h]; rfl
  · rw [exec_inc32, h]; rfl

/-! ## The counter blocks -/

theorem counterBlock_prefix (y0 : Block) (i : Nat) :
    (counterBlock y0 i).extractLsb' 32 96 = y0.extractLsb' 32 96 := by
  induction i with
  | zero => rfl
  | succ i ih => rw [counterBlock, inc32_prefix, ih]

theorem counterBlock_suffix_toNat (y0 : Block) (i : Nat) :
    ((counterBlock y0 i).extractLsb' 0 32).toNat = ((y0.extractLsb' 0 32).toNat + i) % 2 ^ 32 := by
  induction i with
  | zero => exact (Nat.mod_eq_of_lt (BitVec.isLt _)).symm
  | succ i ih => rw [counterBlock, inc32_suffix_toNat, ih, Nat.mod_add_mod, Nat.add_assoc]

/-- Settles O15: both parts of the block, each by induction on the number of increments. -/
theorem counterClosedForm : Obligations.CounterClosedForm := fun y0 i =>
  ⟨counterBlock_prefix y0 i, counterBlock_suffix_toNat y0 i⟩

/-- The suffixes alone differ: the distance of the indices is no multiple of 2^32. -/
theorem counterBlock_ne (y0 : Block) {i j : Nat} (hij : i < j) (hj : j - i < 2 ^ 32) :
    counterBlock y0 i ≠ counterBlock y0 j := by
  intro heq
  have hsuffix := congrArg (fun y : Block => (y.extractLsb' 0 32).toNat) heq
  simp only [counterBlock_suffix_toNat] at hsuffix
  omega

/-! ## The initial counter block -/

section

variable (h : Block) {nonce : List Byte}

theorem deriveY0_of_length_eq (hn : nonce.length = 12) :
    deriveY0 h nonce = blockOfBytes (nonce ++ [0x00#8, 0x00#8, 0x00#8, 0x01#8]) := if_pos hn

theorem deriveY0_of_length_ne (hn : nonce.length ≠ 12) : deriveY0 h nonce = ghash h [] nonce := if_neg hn

theorem deriveY0_toNat (hn : nonce.length = 12) : (deriveY0 h nonce).toNat = intBe nonce * 2 ^ 32 + 1 := by
  have hlen : (nonce ++ [0x00#8, 0x00#8, 0x00#8, 0x01#8]).length = 16 := by simp [hn]
  rw [deriveY0_of_length_eq h hn, blockOfBytes_toNat hlen.le, hlen, Nat.sub_self, zeros, List.replicate_zero,
    List.append_nil, intBe_append]
  rfl

theorem be128_deriveY0 (hn : nonce.length = 12) :
    be128 (deriveY0 h nonce) = nonce ++ [0x00#8, 0x00#8, 0x00#8, 0x01#8] := by
  rw [deriveY0_of_length_eq h hn, be128_blockOfBytes (by simp [hn])]
  simp [hn, zeros]

theorem deriveY0_suffix_toNat (hn : nonce.length = 12) : ((deriveY0 h nonce).extractLsb' 0 32).toNat = 1 := by
  rw [BitVec.extractLsb'_toNat, deriveY0_toNat h hn, Nat.shiftRight_zero]
  omega

end

/-- Settles O17: the two branches by length. -/
theorem initialCounterBlock : Obligations.InitialCounterBlock :=
  ⟨fun h _ hn => ⟨deriveY0_toNat h hn, be128_deriveY0 h hn⟩, fun h _ => deriveY0_of_length_ne h⟩

/-! ## A nonce whose counter wraps -/

theorem segmentBlocks_be128 (v : Block) : segmentBlocks (be128 v) = [v] := by
  have hchunk : chunk (be128 v) 0 = be128 v := List.take_of_length_le (be128_length v).le
  rw [segmentBlocks, be128_length, blockCount, List.range_one, List.map_singleton, hchunk, blockOfBytes_be128]

/-- Under the subkey ONE the hash of one block is the block plus the length block, so every block is the hash of some
16-byte nonce (R153). -/
theorem deriveY0_fieldOne (v : Block) : deriveY0 fieldOne (be128 (v ^^^ 0x80#128)) = v := by
  have hlast : lenBlockOf [] (be128 (v ^^^ 0x80#128)) = 0x80#128 := by
    rw [lenBlockOf, be128_length]
    decide
  calc deriveY0 fieldOne (be128 (v ^^^ 0x80#128))
    _ = absorbAll fieldOne 0 [v ^^^ 0x80#128, 0x80#128] := by
      rw [deriveY0_of_length_ne _ (by simp [be128_length]), ghash_eq_absorbAll, ghashBlocks, segmentBlocks_be128, hlast]
      rfl
    _ = 0#128 ^^^ (v ^^^ 0x80#128) ^^^ 0x80#128 := by
      simp only [absorbAll, List.foldl_cons, List.foldl_nil, absorb, gfAdd, gfMul_fieldOne]
      rfl
    _ = v := by rw [BitVec.zero_xor, BitVec.xor_assoc, BitVec.xor_self, BitVec.xor_zero]

/-- Settles O16: the suffixes differ; after a 12-byte nonce they count from 1 and stay below 2^32; a hashed nonce can
start at a block whose suffix is 2^32 − 2. -/
theorem counterBlocksDistinct : Obligations.CounterBlocksDistinct := by
  refine ⟨fun y0 i j n hn hij hj => counterBlock_ne y0 hij (by omega), fun h nonce i hlen hi => ?_,
    fieldOne, be128 (0x0123456789abcdeffedcba98fffffffe#128 ^^^ 0x80#128), be128_length _, ?_⟩
  · rw [counterBlock_suffix_toNat, deriveY0_suffix_toNat h hlen, Nat.add_comm]
    exact Nat.mod_eq_of_lt (by omega)
  · rw [deriveY0_fieldOne]
    decide

end Sys2Proof.Machine
end

section
/-!
PROOFS. GctrIsSelfInverse: `gctr` byte by byte, and that its keystream does not depend on the data.
-/

namespace Sys2Proof.Machine

/-- Byte `i` of the keystream (R176): byte `i mod 16` of the cipher's answer for block `i div 16`. -/
def keystreamByte (E : Block → Block) (y0 : Block) (i : Nat) : Byte :=
  (be128 (E (counterBlock y0 (i / 16 + 1)))).getD (i % 16) 0

theorem xorPiece_getD {d : List Byte} (ks : Block) {i : Nat} (hi : i < d.length) (h16 : i < 16) :
    (xorPiece d ks).getD i 0 = d.getD i 0 ^^^ (be128 ks).getD i 0 := by
  simp [xorPiece, hi, be128_length, h16]

theorem chunk_getD (s : List Byte) {k i : Nat} (h16 : i < 16) : (chunk s k).getD i 0 = s.getD (16 * k + i) 0 := by
  simp [chunk, List.getElem?_take_of_lt h16]

/-- A byte of the blocks done so far lies in the blocks before the last or in the last. -/
theorem gctrUpTo_getD (E : Block → Block) (y0 : Block) (d : List Byte) {i : Nat} (hi : i < d.length) :
    ∀ k : Nat, i < 16 * k → (gctrUpTo E y0 d k).2.getD i 0 = d.getD i 0 ^^^ keystreamByte E y0 i := by
  intro k
  induction k with
  | zero => intro hk; omega
  | succ k ih =>
    intro hk
    have hlen := gctrUpTo_length E y0 d k
    rw [gctrUpTo_bytes_succ]
    by_cases hbefore : i < 16 * k
    · rw [List.getD_append _ _ _ _ (by omega), ih hbefore]
    · have hdiv : i / 16 = k := by omega
      have hmod : i - min (16 * k) d.length = i % 16 := by omega
      have hpos : 16 * k + i % 16 = i := by omega
      rw [List.getD_append_right _ _ _ _ (by omega), hlen, hmod,
        xorPiece_getD _ (by rw [chunk_length]; omega) (by omega), chunk_getD d (by omega), hpos, keystreamByte, hdiv]

theorem gctr_getD (E : Block → Block) (y0 : Block) (d : List Byte) {i : Nat} (hi : i < d.length) :
    (gctr E y0 d).getD i 0 = d.getD i 0 ^^^ keystreamByte E y0 i :=
  gctrUpTo_getD E y0 d hi _ (by unfold blockCount; omega)

/-- The same keystream byte meets a byte twice. -/
theorem gctr_gctr (E : Block → Block) (y0 : Block) (d : List Byte) : gctr E y0 (gctr E y0 d) = d := by
  have hlen := gctr_length E y0 d
  refine List.ext_getElem ((gctr_length E y0 _).trans hlen) fun i hi hd => ?_
  have hbyte : (gctr E y0 (gctr E y0 d)).getD i 0 = d.getD i 0 := by
    rw [gctr_getD E y0 _ (hlen ▸ hd), gctr_getD E y0 d hd, BitVec.xor_assoc, BitVec.xor_self, BitVec.xor_zero]
  rwa [List.getD_eq_getElem _ _ hi, List.getD_eq_getElem _ _ hd] at hbyte

/-- Settles O26: `gctr_getD` gives each byte, and its xor with the keystream twice is the byte. -/
theorem gctrIsSelfInverse : Obligations.GctrIsSelfInverse := fun E y0 d =>
  ⟨gctr_length E y0 d, fun _ hi => gctr_getD E y0 d hi, gctr_gctr E y0 d⟩

end Sys2Proof.Machine
end

section
/-!
PROOFS. GcmAdmissionErrors: the admission checks of the session commands case by case, and the completion of either
command behind a check that fails and behind none.
-/

namespace Sys2Proof.Machine

variable {P : Params} {regs : HostRegs} {s t : State}

/-! ## The admission checks -/

theorem admitGcm_of_illegal_key (hk : regs.keyLen.toNat ∉ P.legalKeyBytes) : admitGcm P regs = some .cfgKeyLen := by
  have hconf : admitConfiguration P regs = some .cfgKeyLen := if_pos (by simpa using hk)
  rw [admitGcm, hconf]

section

variable (hk : regs.keyLen.toNat ∈ P.legalKeyBytes)
include hk

theorem admitGcm_of_empty_nonce (hn : regs.nonceLen = 0) : admitGcm P regs = some .cfgNonceEmpty := by
  have hconf : admitConfiguration P regs = some .cfgNonceEmpty :=
    (if_neg (by simpa using hk)).trans (if_pos (by rw [hn]; rfl))
  rw [admitGcm, hconf]

/-- Behind the configuration checks stand those for overflow (R218). -/
theorem admitGcm_of_configured (hn : regs.nonceLen ≠ 0) : admitGcm P regs = admitOverflow P regs := by
  have hconf : admitConfiguration P regs = none :=
    (if_neg (by simpa using hk)).trans (if_neg fun h => hn (BitVec.eq_of_toNat_eq h))
  rw [admitGcm, hconf]

end

theorem admitOverflow_of_long_nonce (hn : regs.nonceLen.toNat > 2 ^ 61 - 1) :
    admitOverflow P regs = some .ovfNonceLen := if_pos hn

section

variable (hn : regs.nonceLen.toNat ≤ 2 ^ 61 - 1)
include hn

theorem admitOverflow_of_long_aad (ha : regs.aadLen.toNat > 2 ^ 61 - 1) : admitOverflow P regs = some .ovfAadLen :=
  (if_neg hn.not_gt).trans (if_pos ha)

variable (ha : regs.aadLen.toNat ≤ 2 ^ 61 - 1)
include ha

theorem admitOverflow_of_long_data (hd : regs.dataLen.toNat > 2 ^ 61 - 1) :
    admitOverflow P regs = some .ovfDataLen :=
  (if_neg hn.not_gt).trans ((if_neg ha.not_gt).trans (if_pos hd))

/-- Data of more than 2^36 − 32 bytes has more than 2^32 − 2 blocks (R172). -/
theorem admitOverflow_of_many_blocks (hd : regs.dataLen.toNat ≤ 2 ^ 61 - 1)
    (hb : regs.dataLen.toNat > 2 ^ 36 - 32) : admitOverflow P regs = some .ovfBlocks := by
  have hblocks : (regs.dataLen.toNat + 15) / 16 > 2 ^ 32 - 2 := by omega
  exact (if_neg hn.not_gt).trans ((if_neg ha.not_gt).trans ((if_neg hd.not_gt).trans (if_pos hblocks)))

theorem admitOverflow_of_fitting (hb : regs.dataLen.toNat ≤ 2 ^ 36 - 32) : admitOverflow P regs =
    if (exceeds regs.nonceLen.toNat P.capNonce || exceeds regs.aadLen.toNat P.capAad ||
      exceeds regs.dataLen.toNat P.capData) = true then some .ovfCapacity else none := by
  have hd : ¬ regs.dataLen.toNat > 2 ^ 61 - 1 := by omega
  have hblocks : ¬ (regs.dataLen.toNat + 15) / 16 > 2 ^ 32 - 2 := by omega
  exact (if_neg hn.not_gt).trans ((if_neg ha.not_gt).trans ((if_neg hd).trans (if_neg hblocks)))

theorem admitOverflow_of_exceeding (hb : regs.dataLen.toNat ≤ 2 ^ 36 - 32)
    (hcap : (∃ cap, P.capNonce = some cap ∧ regs.nonceLen.toNat > cap) ∨
      (∃ cap, P.capAad = some cap ∧ regs.aadLen.toNat > cap) ∨
      (∃ cap, P.capData = some cap ∧ regs.dataLen.toNat > cap)) : admitOverflow P regs = some .ovfCapacity := by
  rw [admitOverflow_of_fitting hn ha hb, if_pos]
  rwa [Bool.or_eq_true, Bool.or_eq_true, exceeds_iff, exceeds_iff, exceeds_iff, or_assoc]

theorem admitOverflow_of_admissible (hb : regs.dataLen.toNat ≤ 2 ^ 36 - 32)
    (hN : ∀ cap, P.capNonce = some cap → regs.nonceLen.toNat ≤ cap)
    (hA : ∀ cap, P.capAad = some cap → regs.aadLen.toNat ≤ cap)
    (hD : ∀ cap, P.capData = some cap → regs.dataLen.toNat ≤ cap) : admitOverflow P regs = none := by
  rw [admitOverflow_of_fitting hn ha hb, if_neg]
  rw [Bool.or_eq_true, Bool.or_eq_true, exceeds_iff, exceeds_iff, exceeds_iff]
  rintro ((⟨m, hm, hlt⟩ | ⟨m, hm, hlt⟩) | ⟨m, hm, hlt⟩)
  · exact (hN m hm).not_gt hlt
  · exact (hA m hm).not_gt hlt
  · exact (hD m hm).not_gt hlt

end

/-! ## The commands -/

theorem gcmEncWith_of_rejected {c : ErrCode} (ha : admitGcm P s.regs = some c) :
    gcmEncWith P s = .next (completed 0x00000010#32 (Status.failed c) 0 0 0 [] [] s) := by
  rw [gcmEncWith_eq, ha]
  rfl

theorem gcmDecWith_of_rejected {c : ErrCode} (ha : admitGcm P s.regs = some c) :
    gcmDecWith P s = .next (completed 0x00000011#32 (Status.failed c) 0 0 0 [] [] s) := by
  rw [gcmDecWith_eq, ha]
  rfl

/-- GCM_ENC raises no error but those of the admission checks (R182). -/
theorem gcmEncWith_err (h : gcmEncWith P s = .next t) (herr : Status.err t.status = true) :
    ∃ c, admitGcm P s.regs = some c ∧ t.status = Status.failed c := by
  obtain ⟨c, hc, e⟩ | ⟨-, r, -, e⟩ | ⟨-, op, -, e⟩ := gcmEncWith_cases P s <;> rw [e] at h <;> cases h
  · exact ⟨c, hc, rfl⟩
  · obtain ⟨-, -, hno, -⟩ := Status.succeeded_fields
    cases hno.symm.trans herr

/-- GCM_DEC raises no error but those of the admission checks and, behind them, AUTH_FAIL (R189, R191). -/
theorem gcmDecWith_err (h : gcmDecWith P s = .next t) (herr : Status.err t.status = true) :
    (∃ c, admitGcm P s.regs = some c ∧ t.status = Status.failed c) ∨
      (admitGcm P s.regs = none ∧ t.status = Status.failed .authFail) := by
  obtain ⟨c, hc, e⟩ | ⟨-, r, -, e⟩ | ⟨-, op, -, -, e⟩ | ⟨hn, op, -, -, e⟩ := gcmDecWith_cases P s <;>
    rw [e] at h <;> cases h
  · exact .inl ⟨c, hc, rfl⟩
  · obtain ⟨-, -, hno, -⟩ := Status.authenticated_fields
    cases hno.symm.trans herr
  · exact .inr ⟨hn, rfl⟩

/-- Settles O25: each check that fails, behind the checks before it, ends either command; with none, AUTH_FAIL alone is
left. -/
theorem gcmAdmissionErrors : Obligations.GcmAdmissionErrors := by
  refine ⟨fun _ => ⟨rfl, rfl⟩, fun P s run w hrun => ?_⟩
  have rejected : ∀ {c}, admitGcm P s.regs = some c →
      run P s = .next (completed w (Status.failed c) 0 0 0 [] [] s) := by
    obtain ⟨rfl, rfl⟩ | ⟨rfl, rfl⟩ := hrun
    · exact gcmEncWith_of_rejected
    · exact gcmDecWith_of_rejected
  refine ⟨fun hk => rejected (admitGcm_of_illegal_key hk), fun hk =>
    ⟨fun hn => rejected (admitGcm_of_empty_nonce hk hn), fun hn => ?_, fun hne hn => ?_⟩⟩
  · have hne : s.regs.nonceLen ≠ 0 := fun h0 => by simp [h0] at hn
    exact rejected ((admitGcm_of_configured hk hne).trans (admitOverflow_of_long_nonce hn))
  have hconf := admitGcm_of_configured hk hne
  refine ⟨fun ha => rejected (hconf.trans (admitOverflow_of_long_aad hn ha)), fun ha =>
    ⟨fun hd => rejected (hconf.trans (admitOverflow_of_long_data hn ha hd)),
      fun hd hb => rejected (hconf.trans (admitOverflow_of_many_blocks hn ha hd hb)),
      fun hb hcap => rejected (hconf.trans (admitOverflow_of_exceeding hn ha hb hcap)),
      fun hb hN hA hD t h herr => ?_⟩⟩
  have hnone := hconf.trans (admitOverflow_of_admissible hn ha hb hN hA hD)
  obtain ⟨rfl, rfl⟩ | ⟨rfl, rfl⟩ := hrun
  · obtain ⟨c, hc, -⟩ := gcmEncWith_err h herr
    cases hnone.symm.trans hc
  · obtain ⟨c, hc, -⟩ | ⟨-, hst⟩ := gcmDecWith_err h herr
    · cases hnone.symm.trans hc
    · rw [hst]
      decide

end Sys2Proof.Machine
end

section
/-!
PROOFS. GcmEncPublishesCiphertextAndTag, GcmDecReleasesOnEqualTags, GcmDecDiscardsOnUnequalTags and
CipherRequestsOfACommand: the completion of both session commands on a session's operands, the error codes they raise,
and the requests they make.
-/

namespace Sys2Proof.Machine

variable {P : Params} {regs : HostRegs} {s t : State} {op : GcmOperands}

/-! ## A session's values -/

/-- The initial counter block of a session (R174). -/
def sessionY0 (op : GcmOperands) : Block := deriveY0 (Config.cipher op.key 0) op.nonce

/-- The data of a session enciphered, or deciphered (R176). -/
def sessionGctr (op : GcmOperands) : List Byte := gctr (Config.cipher op.key) (sessionY0 op) op.data

/-- The tag of a session over the ciphertext `c` (R178). -/
def sessionTag (op : GcmOperands) (c : List Byte) : Block := gcmTag (Config.cipher op.key) op.nonce op.aad c

/-- Requests for blocks under the key of a session (R179). -/
def sessionRequests (op : GcmOperands) (blocks : List Block) : List CipherRequest :=
  blocks.map fun b => { key := op.key, block := b }

theorem exec_gcmEnc_of_session (h : GcmSession s op) : exec .gcmEnc s =
    .next (completed 0x00000010#32 0x00000002#32 0 (sessionTag op (sessionGctr op)) s.regs.dataLen
      (Memory.writeBytes [] 0 (sessionGctr op))
      (sessionRequests op (encryptRequests (sessionY0 op) (blockCount s.regs.dataLen.toNat))) s) := by
  show gcmEncWith Config.params s = _
  rw [gcmEncWith_eq, admitGcm_of_session h, sampleGcm_of_session h, admittedRun, Memory.writeBytes_nil, h.dataLen]
  rfl

theorem exec_gcmDec_of_session (h : GcmSession s op) :
    exec .gcmDec s = .next (decryptCompletion Config.params op s) := by
  show gcmDecWith Config.params s = _
  rw [gcmDecWith_eq, admitGcm_of_session h, sampleGcm_of_session h, admittedRun]

theorem exec_gcmDec_of_equal_tags (h : GcmSession s op) (htag : s.regs.tagIn = sessionTag op op.data) :
    exec .gcmDec s = .next (completed 0x00000011#32 0x0000000A#32 0 0 s.regs.dataLen
      (Memory.writeBytes [] 0 (sessionGctr op))
      (sessionRequests op (decryptRequests (sessionY0 op) (blockCount s.regs.dataLen.toNat))) s) := by
  rw [exec_gcmDec_of_session h, Memory.writeBytes_nil, ← h.dataLen]
  exact congrArg _ (if_pos htag.symm)

theorem exec_gcmDec_of_unequal_tags (h : GcmSession s op) (htag : s.regs.tagIn ≠ sessionTag op op.data) :
    exec .gcmDec s = .next (completed 0x00000011#32 0x00000806#32 0 0 0 []
      (sessionRequests op (decryptRequests (sessionY0 op) (blockCount s.regs.dataLen.toNat))) s) := by
  rw [exec_gcmDec_of_session h, ← h.dataLen]
  exact congrArg _ (if_neg htag.symm)

/-! ## The commands -/

/-- The admission checks raise the configuration and overflow errors alone (R171, R172). -/
theorem admitGcm_number {c : ErrCode} (h : admitGcm P regs = some c) :
    1 ≤ c.number.toNat ∧ c.number.toNat ≤ 7 := by
  have hauth : c ≠ .authFail := fun hc => admitGcm_ne_authFail P regs (hc ▸ h)
  have hillegal : c ≠ .illegalCmd := by
    rintro rfl
    unfold admitGcm admitConfiguration admitOverflow at h
    split_ifs at h <;> cases h
  cases c with
  | authFail => exact absurd rfl hauth
  | illegalCmd => exact absurd rfl hillegal
  | _ => decide

/-- Settles O27: the run on a session's operands, the codes of the admission checks, and the example evaluated. -/
theorem gcmEncPublishesCiphertextAndTag : Obligations.GcmEncPublishesCiphertextAndTag := by
  refine ⟨decode_encode .gcmEnc, fun _ _ _ _ => rfl, fun s t h herr => ?_, ?_, fun s op => exec_gcmEnc_of_session⟩
  · obtain ⟨c, hc, hst⟩ := gcmEncWith_err h herr
    obtain ⟨-, -, -, -, hcode, -⟩ := Status.failed_fields c
    rw [hst, hcode]
    exact admitGcm_number hc
  · decide +kernel

/-- Settles O28: the two branches of `gcm_decrypt`, and the run on a session's operands. -/
theorem gcmDecReleasesOnEqualTags : Obligations.GcmDecReleasesOnEqualTags :=
  ⟨decode_encode .gcmDec, fun _ _ _ _ _ => ⟨fun htag => if_pos htag, fun htag => if_neg htag⟩,
    fun _ _ => exec_gcmDec_of_equal_tags⟩

/-- Settles O29: the codes of the admission checks and AUTH_FAIL, and the run on a session's operands. -/
theorem gcmDecDiscardsOnUnequalTags : Obligations.GcmDecDiscardsOnUnequalTags := by
  refine ⟨fun s t h herr => ?_, fun s op => exec_gcmDec_of_unequal_tags⟩
  obtain ⟨c, hc, hst⟩ | ⟨-, hst⟩ := gcmDecWith_err h herr
  · obtain ⟨-, -, -, -, hcode, -⟩ := Status.failed_fields c
    obtain ⟨hmin, hmax⟩ := admitGcm_number hc
    rw [hst, hcode]
    exact ⟨hmin, by omega⟩
  · rw [hst]
    decide

/-! ## The requests -/

/-- The blocks of a session's requests, up to their order: 0 and the counter blocks from Y0 (R179). -/
theorem decryptRequests_eq (y0 : Block) (n : Nat) :
    decryptRequests y0 n = 0 :: (List.range (n + 1)).map (counterBlock y0) := by
  simp [decryptRequests, List.range_succ_eq_map, counterBlock, Function.comp_def]

/-- GCM_ENC asks for Y0 last and GCM_DEC before the other counter blocks (R180, R188). -/
theorem encryptRequests_perm (y0 : Block) (n : Nat) : (encryptRequests y0 n).Perm (decryptRequests y0 n) :=
  (List.perm_append_singleton y0 _).cons 0

theorem sessionRequests_spec {y0 : Block} {n : Nat} {blocks : List Block} (h : blocks.Perm (decryptRequests y0 n)) :
    (sessionRequests op blocks).length = n + 2 ∧ (∀ r ∈ sessionRequests op blocks, r.key = op.key) ∧
      ((sessionRequests op blocks).map CipherRequest.block).Perm
        (0 :: (List.range (n + 1)).map (counterBlock y0)) := by
  refine ⟨?_, by simp [sessionRequests], ?_⟩
  · rw [sessionRequests, List.length_map, h.length_eq, decryptRequests_eq]
    simp
  · simpa [sessionRequests, Function.comp_def, decryptRequests_eq] using h

theorem exec_gcmDec_requests (h : GcmSession s op) : ∃ t, exec .gcmDec s = .next t ∧
    t.requests = sessionRequests op (decryptRequests (sessionY0 op) (blockCount s.regs.dataLen.toNat)) := by
  by_cases htag : s.regs.tagIn = sessionTag op op.data
  · exact ⟨_, exec_gcmDec_of_equal_tags h htag, rfl⟩
  · exact ⟨_, exec_gcmDec_of_unequal_tags h htag, rfl⟩

/-- Settles O30: the requests of the two commands on a session's operands; every other completion, and that of an
illegal word, has the empty record that START leaves. -/
theorem cipherRequestsOfACommand : Obligations.CipherRequestsOfACommand := by
  refine ⟨fun s op i h hi => ?_, fun i s t h hcase => ?_, fun w why s t hw h => ?_⟩
  · obtain rfl | rfl := hi
    · exact ⟨_, exec_gcmEnc_of_session h, sessionRequests_spec (encryptRequests_perm _ _)⟩
    · obtain ⟨t, ht, hreq⟩ := exec_gcmDec_requests h
      exact ⟨t, ht, hreq ▸ sessionRequests_spec (.refl _)⟩
  · obtain ⟨st, res, tag, len, dout, requests, rfl, hends⟩ := exec_next_cases h
    obtain ⟨c, rfl, hnone, hauth, -⟩ | ⟨-, -, -, -, -, hnone⟩ | ⟨rfl, rfl, -⟩ | ⟨rfl, rfl, -⟩ := hends
    · refine hnone fun hc => ?_
      obtain hprim | ⟨-, hcode⟩ := hcase
      · simp [hauth hc] at hprim
      · simp [completed, Status.failed_fields, hc, ErrCode.number] at hcode
    · exact hnone
    · simp [completed, Status.succeeded_fields] at hcase
    · simp [completed, Status.authenticated_fields] at hcase
  · rw [runCommand_of_illegal hw] at h
    cases h
    rfl

end Sys2Proof.Machine
end

section
/-!
PROOFS. DecryptionUndoesEncryption, TamperedTagAlwaysFails and FailedDecryptionsLookAlike: GCM_DEC on what GCM_ENC made,
and what a failed GCM_DEC leaves.
-/

namespace Sys2Proof.Machine

variable {s t : State} {op : GcmOperands}

/-- The session of a GCM_DEC that gets the ciphertext of a GCM_ENC as its data (R192). -/
def ciphertextSession (op : GcmOperands) : GcmOperands := { op with data := sessionGctr op }

theorem sessionGctr_length (op : GcmOperands) : (sessionGctr op).length = op.data.length := gctr_length _ _ _

theorem sessionGctr_ciphertextSession (op : GcmOperands) : sessionGctr (ciphertextSession op) = op.data :=
  gctr_gctr _ _ _

theorem read_writeBytes_nil (vs : List Byte) (j : Nat) : Memory.read (Memory.writeBytes [] 0 vs) j = vs[j]? := by
  have hread := Memory.read_cellsFrom vs 0 j
  rwa [Nat.zero_add, ← Memory.writeBytes_nil] at hread

/-- The state `t` with its data and its received tag written anew by the host. -/
def withReceived (t : State) (din : Memory) (tag : Block) : State :=
  { t with regs := { t.regs with tagIn := tag }, bufs := { t.bufs with din := din } }

/-- What GCM_ENC made and the host copied back is again a session, whatever the received tag. -/
theorem GcmSession.withReceived {din : Memory} (h : GcmSession s op) (ht : exec .gcmEnc s = .next t)
    (hdin : ∀ j, j < t.outLen.toNat → Memory.read din j = Memory.read t.dout j) (tag : Block) :
    GcmSession (withReceived t din tag) (ciphertextSession op) := by
  cases (exec_gcmEnc_of_session h).symm.trans ht
  have hlen := (sessionGctr_length op).trans h.dataLen
  refine { h with dataLen := hlen, data := fun j v hj => ?_ }
  have hlt : j < s.regs.dataLen.toNat := hlen ▸ (List.getElem?_eq_some_iff.mp hj).1
  exact (hdin j hlt).trans ((read_writeBytes_nil _ j).trans hj)

theorem exec_gcmEnc_tagOut (h : GcmSession s op) (ht : exec .gcmEnc s = .next t) :
    t.tagOut = sessionTag (ciphertextSession op) (ciphertextSession op).data := by
  cases (exec_gcmEnc_of_session h).symm.trans ht
  rfl

/-- Settles O31: GCM_ENC's tag is the one GCM_DEC expects, and `gctr` undoes itself. -/
theorem decryptionUndoesEncryption : Obligations.DecryptionUndoesEncryption := by
  intro s t op din h ht hdin
  have hdec := exec_gcmDec_of_equal_tags (h.withReceived ht hdin t.tagOut) (exec_gcmEnc_tagOut h ht)
  cases (exec_gcmEnc_of_session h).symm.trans ht
  have hidle : Status.busy 0x0000000A#32 = false := by decide
  refine ⟨_, hdec, rfl, rfl, fun j hj => hostReadDout_of_read hidle (h.dataLen ▸ hj) ?_, rfl, rfl⟩
  rw [sessionGctr_ciphertextSession]
  exact (read_writeBytes_nil _ j).trans (by simp [hj])

/-- Settles O32: the tag over the ciphertext is TAG_OUT, so any other is unequal to it. -/
theorem tamperedTagAlwaysFails : Obligations.TamperedTagAlwaysFails := by
  refine ⟨fun a c a' c' => (zero_ghash a c).trans (zero_ghash a' c').symm, fun s t op din tag h ht hdin hne => ?_⟩
  rw [exec_gcmEnc_tagOut h ht] at hne
  exact ⟨_, exec_gcmDec_of_unequal_tags (h.withReceived ht hdin tag) hne, rfl, rfl, rfl, rfl, rfl⟩

/-- Code 8 is the discard of a decryption with unequal tags (R191). -/
theorem gcmDecWith_authFail {P : Params} (h : gcmDecWith P s = .next t) (hcode : Status.errCode t.status = 8#4) :
    ∃ requests, t = completed 0x00000011#32 0x00000806#32 0 0 0 [] requests s := by
  obtain ⟨c, hc, e⟩ | ⟨-, r, -, e⟩ | ⟨-, op, -, -, e⟩ | ⟨-, op, -, -, e⟩ := gcmDecWith_cases P s <;>
    rw [e] at h <;> cases h
  · obtain ⟨-, -, -, -, hnum, -⟩ := Status.failed_fields c
    have hauth := (ErrCode.number_eq_eight c).mp (hnum.symm.trans hcode)
    exact absurd (hauth ▸ hc) (admitGcm_ne_authFail P s.regs)
  · obtain ⟨-, -, -, -, hzero, -⟩ := Status.authenticated_fields
    cases hzero.symm.trans hcode
  · exact ⟨_, rfl⟩

/-- Settles O33: what both leave is a constant (`gcmDecWith_authFail`), and OUT_LEN is 0. -/
theorem failedDecryptionsLookAlike : Obligations.FailedDecryptionsLookAlike := by
  intro P Q s s' t t' h h' hcode hcode'
  obtain ⟨requests, rfl⟩ := gcmDecWith_authFail h hcode
  obtain ⟨requests', rfl⟩ := gcmDecWith_authFail h' hcode'
  exact ⟨⟨rfl, rfl, rfl, rfl, rfl, rfl⟩, ⟨rfl, rfl, rfl, rfl⟩, rfl, fun i =>
    hostReadDout_blank (.inr (Nat.zero_le i))⟩

end Sys2Proof.Machine
end

section
/-!
PROOFS. StepNeverFaults and DoneLineFollowsStatus: no fault from a state of the invariant, and the done line at START, at
a completion and at reset.
-/

namespace Sys2Proof.Machine

variable {P : Params} {s : State}

/-! ## No step faults -/

/-- The clauses of the invariant about PHASE and OBUF keep a busy core from getting stuck (R214). -/
theorem tick_ne_fault (hi : Invariant s) (hb : coreBusy s = true) (f : Fault) : tick P s ≠ .fault f := by
  cases hd : decode s.cmd with
  | illegal why => simp [tick, hd, hi.illegalInCheck hb why hd]
  | command i =>
    obtain ⟨t, ht, -⟩ | ⟨r, hr⟩ := tick_of_command P i s hb hi hd
    · simp [ht]
    · simp [hr]

theorem coreStep_ne_fault (hi : Invariant s) (f : Fault) : coreStep P s ≠ .fault f := by
  unfold coreStep
  split
  · next hb => exact tick_ne_fault hi hb f
  · exact nofun

theorem runCommand_ne_fault (w : Word32) (s : State) (f : Fault) : runCommand w s ≠ .fault f := by
  unfold runCommand
  split
  · exact exec_ne_fault _ s f
  · exact nofun

theorem hostWriteCmd_ne_fault (w : Word32) (s : State) (f : Fault) : hostWriteCmd w s ≠ .fault f := by
  unfold hostWriteCmd
  split
  · exact nofun
  · split
    · exact nofun
    · exact runCommand_ne_fault w s f

/-- Where no capacity is set, every index exists (R27). -/
theorem hostWriteByte_default_ne_fault (b : Buf) (j : Nat) (v : Byte) (s : State) (f : Fault) :
    hostWriteByte Config.params b j v s ≠ .fault f := by
  cases hb : coreBusy s with
  | true => simp [hostWriteByte, hb]
  | false => simp [hostWriteByte_of_idle v hb (indexExists_default b j)]

theorem replyByte_ne_fault (b : Buf) (j : Nat) (s : State) (f : Fault) : replyByte b j s ≠ .fault f := by
  unfold replyByte
  split <;> exact nofun

/-- No host action faults with the default capacities, a WAIT or a pause on a busy core among them. -/
theorem hostAction_default_ne_fault (a : HostAction) (hi : Invariant s) (f : Fault) :
    hostAction Config.params a s ≠ .fault f := by
  cases a with
  | write32 r v =>
    cases r with
    | cmd => exact hostWriteCmd_ne_fault v s f
    | status => exact nofun
  | write64 r v => exact nofun
  | write128 r v => exact nofun
  | writeByte b j v => exact hostWriteByte_default_ne_fault b j v s f
  | read32 r => exact nofun
  | read64 r => exact nofun
  | read128 r => exact nofun
  | readByte b j => exact replyByte_ne_fault b j s f
  | wait =>
    simp only [hostAction]
    split
    · exact nofun
    · exact coreStep_ne_fault (invariant_ports.mpr hi) f
  | pause => exact coreStep_ne_fault hi f
  | reset => exact nofun

/-- Settles O50: a step is the core's own, or the host action at the head of `pending`. -/
theorem stepNeverFaults : Obligations.StepNeverFaults := by
  intro s f hi
  unfold step
  split
  · exact coreStep_ne_fault hi f
  · exact hostAction_default_ne_fault _ (invariant_ports.mpr hi) f

/-! ## The done line -/

theorem doneLine_start (w : Word32) (s : State) : doneLine (start w s) = false := by
  simp only [doneLine, start_status]; decide

/-- Settles O44: a completion sets DONE (`completionPublishesAndClears`), START and reset clear it. -/
theorem doneLineFollowsStatus : Obligations.DoneLineFollowsStatus := by
  refine ⟨fun _ => rfl, fun i s t h => ?_, doneLine_start, doneLine_resetCore⟩
  obtain ⟨-, hdone, -⟩ := completionPublishesAndClears i s t h
  exact hdone

end Sys2Proof.Machine
end
